-- ==== Sys2Proof/Word.lean ====
section
/-! DEFINITION. The words and value kinds of the QTC block: the bit fields the spec numbers, and the small closed sets of values its registers and its classifier hold. -/

namespace Sys2Proof

/-- The 5-bit event word `EVT[4:0]` (30_encoding.md R60). -/
abbrev EventWord := BitVec 5

/-- A signal pair as the state code `2*A + B` (30_encoding.md R61). -/
abbrev StateCode := BitVec 2

/-- The index of the lookup table, `P*4 + N` (30_encoding.md R62). -/
abbrev TableIndex := BitVec 4

/-- The 2-bit wire code of a classification, decision or direction (30_encoding.md R63, R64). -/
abbrev ValueCode := BitVec 2

/-- The indicator output `IND[2:0]` (30_encoding.md R65). -/
abbrev IndWord := BitVec 3

/-- The rate output `RATE[63:0]` (30_encoding.md R66). -/
abbrev RateWord := BitVec 64

/-- A trusted decision: no rotation, clockwise or counter-clockwise (00_scope.md R13). -/
inductive Decision where
  | noRot
  | cw
  | ccw
deriving DecidableEq, Repr

/-- What the classifier answers: a decision, or the invalid-transition sentinel (00_scope.md R13). -/
inductive Classification where
  | decided (d : Decision)
  | sentinel
deriving DecidableEq, Repr

/-- The decided direction held in `DIR` (10_state.md R28). -/
inductive Direction where
  | none
  | cw
  | ccw
deriving DecidableEq, Repr

end Sys2Proof
end

