-- ==== Sys2Proof/Config.lean ====
section
/-! DEFINITION. What is fixed before the block is reset: its parameters (00_scope.md R7), the configuration the reset state carries, and the values the spec leaves open. -/

namespace Sys2Proof

/-- The operating mode `MODE` (00_scope.md R9). -/
inductive Mode where
  | vote
  | direct
  | pulse
deriving DecidableEq, Repr

/-- The kind of channel-A edge that counts as a pulse, `PULSE_EDGE` (00_scope.md R7). -/
inductive PulseEdge where
  | rising
  | falling
  | both
deriving DecidableEq, Repr

/-- `RATE_BYTE_ORDER`, used only where an integrator maps RATE onto a byte bus (20_memory.md R51). -/
inductive ByteOrder where
  | little
  | big
deriving DecidableEq, Repr

/-- The parameter `RATE_ENC` (00_scope.md R7): the default IEEE 754 binary64 encoding, or another
function, known to the model only by a number. -/
inductive RateEncoding where
  | binary64
  | other (which : Nat)
deriving DecidableEq, Repr

/-- The block's parameters, exactly those of 00_scope.md R7. -/
structure Config where
  cpr           : Nat
  ep            : Nat
  t             : Rat
  nOvf          : Nat
  mode          : Mode
  pulseEdge     : PulseEdge
  accW          : Nat
  pcntW         : Nat
  rateEnc       : RateEncoding
  rateByteOrder : ByteOrder
deriving DecidableEq, Repr

/-- The configuration `State.reset` carries. MODE, PULSE_EDGE, ACC_W, PCNT_W and RATE_ENC are the
spec's defaults (00_scope.md R7). DESIGN CHOICE (log 2): CPR, EP, T, N_OVF and RATE_BYTE_ORDER are OPEN. -/
def Config.atReset : Config where
  cpr           := 500
  ep            := 50
  t             := 1
  nOvf          := 1
  mode          := .vote
  pulseEdge     := .rising
  accW          := 32
  pcntW         := 32
  rateEnc       := .binary64
  rateByteOrder := .little

/-- FREE VALUE (log 10): a `RATE_ENC` other than the default is an uninterpreted function
(93_implementation_defined.md, "Encoding of the rate word"). -/
opaque Config.otherRateEncoding : Nat → Rat → RateWord

/-- FREE VALUE (log 9): `RATE[62:0]` under the default encoding for a negative rate, which no run
reaches (43_rate_estimator.md R123) and for which `RATE_ENC` is no function (00_scope.md R7). -/
opaque Config.rateOfNegative : Rat → BitVec 63

end Sys2Proof
end

