-- ==== Sys2Proof/Syntax.lean ====
section
/-! DEFINITION. The operations of spec/opcode_table.json, what can be presented on the block's ports, and the spec's pseudo-instructions. -/

namespace Sys2Proof

/-- The block's operations, one constructor per row of the opcode table. `a` and `b` are the sampled
channels `EVT[1]` and `EVT[0]` (30_encoding.md R68); don't-care bits are no operands. -/
inductive Instr where
  | rst (a b : Bool)
  | idle
  | edge (a b : Bool)
  | ovf
  | edgeOvf (a b : Bool)
  | hrd
deriving DecidableEq, Repr

/-- One thing presented to the block: an event word (30_encoding.md R60), or the host's read of the
output ports, which has no word (30_encoding.md R71). -/
inductive Input where
  | event (w : EventWord)
  | hostRead
deriving DecidableEq, Repr

/-- The pseudo-instructions of 30_encoding.md R73. -/
inductive Pseudo where
  | rstS (s : StateCode)
  | edgeS (s : StateCode)
  | sample
  | hold (n : Nat)
deriving DecidableEq, Repr

end Sys2Proof
end

