-- ==== Sys2Proof/WellFormed.lean ====
section
/-! DEFINITION. Which configurations have a model (00_scope.md R9), and which instructions are well formed. -/

namespace Sys2Proof

/-- A valid configuration (00_scope.md R9, with the constraints of R7 on `ACC_W` and `PCNT_W`). That
MODE and PULSE_EDGE have a legal value is their type. -/
abbrev Config.Valid (c : Config) : Prop :=
  1 ≤ c.cpr ∧ 1 ≤ c.ep ∧ 0 < c.t ∧ 1 ≤ c.nOvf ∧ 2 ≤ c.accW ∧ c.ep < 2 ^ (c.accW - 1) ∧ 1 ≤ c.pcntW

/-- The 2-bit realisation code of MODE (10_state.md R33). -/
def Mode.code : Mode → BitVec 2
  | .vote => 0
  | .direct => 1
  | .pulse => 2

/-- MODE from its realisation code; 3 is not a legal value (10_state.md R33). -/
def Mode.ofCode (c : BitVec 2) : Option Mode :=
  if c = 0 then some .vote
  else if c = 1 then some .direct
  else if c = 2 then some .pulse
  else none

/-- The 2-bit realisation code of PULSE_EDGE (10_state.md R33). -/
def PulseEdge.code : PulseEdge → BitVec 2
  | .rising => 0
  | .falling => 1
  | .both => 2

/-- PULSE_EDGE from its realisation code; 3 is not a legal value (10_state.md R33). -/
def PulseEdge.ofCode (c : BitVec 2) : Option PulseEdge :=
  if c = 0 then some .rising
  else if c = 1 then some .falling
  else if c = 2 then some .both
  else none

/-- Every instruction is well formed: an operand is one bit by its type, and no event is reserved or
illegal (30_encoding.md R68, R69). -/
def Instr.wf : Instr → Bool
  | .rst _ _ => true
  | .idle => true
  | .edge _ _ => true
  | .ovf => true
  | .edgeOvf _ _ => true
  | .hrd => true

end Sys2Proof
end

