-- ==== Sys2Proof/Decode.lean ====
section
/-! DEFINITION. The event decode of 30_encoding.md R67 and R68, the encoder (R72), the opcode table's rows, and the written syntax. -/

namespace Sys2Proof

/-- The event a 5-bit word stands for: `EVT[4]` (RST) over everything else, then `EVT[3]` (OVF) and
`EVT[2]` (EDGE) (30_encoding.md R67). Every word has one (R69). -/
def decodeEvent (w : EventWord) : Instr :=
  match w[4], w[3], w[2] with
  | true, _, _ => .rst w[1] w[0]
  | false, false, false => .idle
  | false, false, true => .edge w[1] w[0]
  | false, true, false => .ovf
  | false, true, true => .edgeOvf w[1] w[0]

/-- The operation that something presented to the block stands for (30_encoding.md R67, R71). -/
def decode : Input → Instr
  | .event w => decodeEvent w
  | .hostRead => .hrd

/-- The event word `{rst, ovf, edge, a, b}` (30_encoding.md R60). -/
def eventWord (rst ovf edge a b : Bool) : EventWord :=
  BitVec.ofBool rst ++ BitVec.ofBool ovf ++ BitVec.ofBool edge ++ BitVec.ofBool a ++ BitVec.ofBool b

/-- What is presented for an instruction, don't-care bits written 0 (30_encoding.md R72; log 14). -/
def encode : Instr → Input
  | .rst a b => .event (eventWord true false false a b)
  | .idle => .event (eventWord false false false false false)
  | .edge a b => .event (eventWord false false true a b)
  | .ovf => .event (eventWord false true false false false)
  | .edgeOvf a b => .event (eventWord false true true a b)
  | .hrd => .hostRead

/-- The bits of an event word that its event reads: all of them but RST's `EVT[3:2]` and the `EVT[1:0]`
of IDLE and OVF (30_encoding.md R68). The host read has no word. -/
def Instr.careBits : Instr → EventWord
  | .rst _ _ => 0b10011
  | .idle => 0b11100
  | .edge _ _ => 0b11111
  | .ovf => 0b11100
  | .edgeOvf _ _ => 0b11111
  | .hrd => 0

/-- One event row of the opcode table: a word is of the row when its bits under the mask are the pattern. -/
structure OpcodeRow where
  mnemonic : String
  pattern  : EventWord
  mask     : EventWord
deriving DecidableEq, Repr

/-- The event rows of spec/opcode_table.json, in its order (HRD has no word). -/
def opcodeRows : List OpcodeRow :=
  [⟨"RST", 0x10, 0x10⟩, ⟨"IDLE", 0x00, 0x1C⟩, ⟨"EDGE", 0x04, 0x1C⟩, ⟨"OVF", 0x08, 0x1C⟩,
   ⟨"EDGE_OVF", 0x0C, 0x1C⟩]

/-- Does the row claim the word? -/
def OpcodeRow.claims (r : OpcodeRow) (w : EventWord) : Bool := w &&& r.mask == r.pattern

/-- The instruction's mnemonic in the opcode table. -/
def Instr.mnemonic : Instr → String
  | .rst _ _ => "RST"
  | .idle => "IDLE"
  | .edge _ _ => "EDGE"
  | .ovf => "OVF"
  | .edgeOvf _ _ => "EDGE_OVF"
  | .hrd => "HRD"

/-- The operand bits of an event as they are written, `a,b` (30_encoding.md R72). -/
def writtenPair (a b : Bool) : String := " " ++ (if a then "1" else "0") ++ "," ++ (if b then "1" else "0")

/-- The line an instruction is written as (30_encoding.md R72). -/
def Instr.written : Instr → String
  | .rst a b => "RST" ++ writtenPair a b
  | .idle => "IDLE"
  | .edge a b => "EDGE" ++ writtenPair a b
  | .ovf => "OVF"
  | .edgeOvf a b => "EDGE_OVF" ++ writtenPair a b
  | .hrd => "HRD"

/-- Why a number is no event word. No 5-bit word is ever rejected (30_encoding.md R69). -/
inductive DecodeError where
  /-- A bit above `EVT[4]` is set: an event word has 5 bits (30_encoding.md R60, R70). -/
  | widerThanEventWord
deriving DecidableEq, Repr

/-- Decoding any number: an event word where it fits in 5 bits, rejected by name where it does not. -/
def decodeNumber (n : Nat) : Except DecodeError Instr :=
  if n < 32 then .ok (decodeEvent (BitVec.ofNat 5 n)) else .error .widerThanEventWord

/-- What the host presents for a table row of `nbits` bits whose bits are `w` (log 15): a row of no
bits is HRD, which has no word; any other row is an event word. -/
def tableInput (nbits w : Nat) : Option Input :=
  if nbits = 0 then (if w = 0 then some .hostRead else none)
  else if w < 32 then some (.event (BitVec.ofNat 5 w))
  else none

/-- The instruction the decoder reads from a table row's bits. -/
def decodeTableWord (nbits w : Nat) : Option Instr := (tableInput nbits w).map decode

end Sys2Proof
end

