-- ==== Sys2Proof/Machine/State.lean ====
section
/-! DEFINITION. The machine's state: the nine registers of 10_state.md R20, whether a RST has been applied (70_reset_and_hazards.md R170), the configuration, and the block's surroundings as plain data. -/

namespace Sys2Proof.Machine

/-- The block's registers, exactly the nine of 10_state.md R20. -/
structure Regs where
  /-- `STATE`, the last-accepted signal pair (R21). -/
  state  : StateCode
  /-- `OLD_ROT`, the last trusted decision (R22). -/
  oldRot : Decision
  /-- `TCW`, the CW tally, `TALLY_W` bits (R23). -/
  tcw    : Nat
  /-- `TCCW`, the CCW tally, `TALLY_W` bits (R24). -/
  tccw   : Nat
  /-- `ACC`, the Rotation Accumulator in units of 1/`CPR` revolution, signed, `ACC_W` bits (R26). -/
  acc    : Int
  /-- `PCNT`, the channel-A pulse count, `PCNT_W` bits (R27). -/
  pcnt   : Nat
  /-- `DIR`, the decided direction (R28). -/
  dir    : Direction
  /-- `RATE_Q`, the Rate Value in revolutions per second (R30). -/
  rateQ  : Rat
  /-- `OVF_CNT`, overflows still to come before the next sample, `OVF_W` bits (R31). -/
  ovfCnt : Nat
deriving DecidableEq, Repr

/-- What one HRD returns: RATE and IND of one state (43_rate_estimator.md R127). -/
structure HostRead where
  rate : RateWord
  ind  : IndWord
deriving DecidableEq, Repr

/-- The machine's state. `cfg` is the configuration, fixed before reset and written by no event
(00_scope.md R6). `rstSeen` says whether a RST event has been applied (70_reset_and_hazards.md R170).
`input` is what is still to be presented to the block, oldest first, and `hostRead` what the last HRD
returned: both stand for the surroundings and are the model's own (log 4, log 7). -/
structure State where
  cfg      : Config
  rstSeen  : Bool
  regs     : Regs
  input    : List Input
  hostRead : Option HostRead
deriving DecidableEq, Repr

/-- Why the machine faults. -/
inductive Fault where
  /-- Raised by every meaning but RST's, before the first RST event: the registers hold no value
  (70_reset_and_hazards.md R170, 10_state.md R39). Safe: the spec itself makes it a model fault. -/
  | noValueBeforeReset
deriving DecidableEq, Repr

/-- Why the machine refuses. -/
inductive Refusal where
  /-- Raised by an arm of `exec` whose instruction has no meaning yet. Safe. -/
  | notModelled (mnemonic : String)
  /-- Raised by every meaning, and by a step with nothing presented, on a configuration that is not
  valid: no block is built (00_scope.md R9). Safe: the spec itself refuses it. -/
  | invalidConfiguration
deriving DecidableEq, Repr

/-- The registers right after a RST event carrying the pair with state code `p`
(70_reset_and_hazards.md R171). -/
def Regs.afterRst (c : Config) (p : StateCode) : Regs where
  state  := p
  oldRot := .noRot
  tcw    := 0
  tccw   := 0
  acc    := 0
  pcnt   := 0
  dir    := .none
  rateQ  := 0
  ovfCnt := c.nOvf

/-- The block right after a RST event, nothing else presented and no host read made. -/
def State.afterRst (c : Config) (p : StateCode) : State where
  cfg      := c
  rstSeen  := true
  regs     := Regs.afterRst c p
  input    := []
  hostRead := none

/-- The machine right after reset: the block after `RST 0,0` (DESIGN CHOICE, log 1) in the
configuration `Config.atReset` (log 2). -/
def State.reset : State := State.afterRst Config.atReset 0

/-- The block from power-on until its first RST event (70_reset_and_hazards.md R170, also after a
loss of power, 60_exceptions.md R162). The registers hold no value: what stands in `regs` is a
placeholder that no rule reads (log 6). -/
def State.powerOn (c : Config) : State := { State.afterRst c 0 with rstSeen := false }

end Sys2Proof.Machine
end

