-- ==== Sys2Proof/Machine/Ops.lean ====
section
/-! DEFINITION. The shared operations: wrap-around arithmetic and register widths, the write of each register, the guards every meaning stands behind, and what is presented next. -/

namespace Sys2Proof.Machine

/-- `wrap_s(W, v)`: the integer congruent to `v` modulo `2^W` in `-2^(W-1) .. 2^(W-1)-1` (00_scope.md R11). -/
def wrapS (w : Nat) (v : Int) : Int := v.bmod (2 ^ w)

/-- `wrap_u(W, v) = v mod 2^W` (00_scope.md R11). -/
def wrapU (w : Nat) (v : Int) : Nat := (v % 2 ^ w).toNat

/-- The least `w` with `2^w > n` (00_scope.md R8). -/
def widthFor (n : Nat) : Nat := if n = 0 then 0 else n.log2 + 1

/-- `TALLY_W` (00_scope.md R8). -/
def tallyW (c : Config) : Nat := widthFor c.ep

/-- `OVF_W` (00_scope.md R8). -/
def ovfW (c : Config) : Nat := widthFor c.nOvf

/-- `STATE <- v`. -/
def Regs.setState (r : Regs) (v : StateCode) : Regs := { r with state := v }

/-- `OLD_ROT <- v`. -/
def Regs.setOldRot (r : Regs) (v : Decision) : Regs := { r with oldRot := v }

/-- `TCW <- v`, a register of `TALLY_W` bits (10_state.md R23; log 8). -/
def Regs.setTcw (c : Config) (r : Regs) (v : Int) : Regs := { r with tcw := wrapU (tallyW c) v }

/-- `TCCW <- v`, a register of `TALLY_W` bits (10_state.md R24; log 8). -/
def Regs.setTccw (c : Config) (r : Regs) (v : Int) : Regs := { r with tccw := wrapU (tallyW c) v }

/-- `ACC <- wrap_s(ACC_W, v)` (10_state.md R26). -/
def Regs.setAcc (c : Config) (r : Regs) (v : Int) : Regs := { r with acc := wrapS c.accW v }

/-- `PCNT <- wrap_u(PCNT_W, v)` (10_state.md R27). -/
def Regs.setPcnt (c : Config) (r : Regs) (v : Int) : Regs := { r with pcnt := wrapU c.pcntW v }

/-- `DIR <- v`. -/
def Regs.setDir (r : Regs) (v : Direction) : Regs := { r with dir := v }

/-- `RATE_Q <- v`. -/
def Regs.setRateQ (r : Regs) (v : Rat) : Regs := { r with rateQ := v }

/-- `OVF_CNT <- v`, a register of `OVF_W` bits (10_state.md R31; log 8). -/
def Regs.setOvfCnt (c : Config) (r : Regs) (v : Int) : Regs := { r with ovfCnt := wrapU (ovfW c) v }

/-- An invalid configuration has no model: it is refused (00_scope.md R9; log 11). -/
def whenBuilt (s : State) (k : Host.Outcome State Fault Refusal) : Host.Outcome State Fault Refusal :=
  if s.cfg.Valid then k else .refused .invalidConfiguration

/-- Before the first RST event, anything but RST is a model fault (70_reset_and_hazards.md R170). -/
def whenReset (s : State) (k : Host.Outcome State Fault Refusal) : Host.Outcome State Fault Refusal :=
  whenBuilt s (if s.rstSeen then k else .fault .noValueBeforeReset)

/-- One event's effect on the registers, visible all at once (00_scope.md R12, 20_memory.md R55). -/
def onRegs (s : State) (f : Regs → Regs) : Host.Outcome State Fault Refusal :=
  whenReset s (.next { s with regs := f s.regs })

/-- What is presented next, taken off the front: events and host reads are one total order
(20_memory.md R55, R56). -/
def nextInput (s : State) : Option (Input × State) :=
  match s.input with
  | [] => none
  | x :: rest => some (x, { s with input := rest })

/-- A step at which nothing is presented: the block does nothing between events
(60_exceptions.md R162; log 4). -/
def betweenEvents (s : State) : Host.Outcome State Fault Refusal := whenBuilt s (.next s)

end Sys2Proof.Machine
end

