-- ==== Sys2Proof/Machine/Operands.lean ====
section
/-! DEFINITION. The operands of an event: the signal pair it carries as a state code, and the index of a transition. -/

namespace Sys2Proof.Machine

/-- The state code `{A, B}` of a signal pair (30_encoding.md R61, R68). -/
def pairCode (a b : Bool) : StateCode := BitVec.ofBool a ++ BitVec.ofBool b

/-- Channel A of a state code, `STATE[1]` (30_encoding.md R61). -/
def channelA (s : StateCode) : Bool := s[1]

/-- The lookup-table index `{P[1:0], N[1:0]}` of a transition from `P` to `N` (30_encoding.md R62). -/
def tableIndex (p n : StateCode) : TableIndex := p ++ n

end Sys2Proof.Machine
end

