-- ==== Sys2Proof/Machine/Classifier.lean ====
section
/-! DEFINITION. The Transition Classifier: the fixed lookup table and its one operation (41_classifier.md). -/

namespace Sys2Proof.Machine

/-- `Table[0..15]` (41_classifier.md R80), a row of four for each previous state code. -/
def classifierTable : Vector Classification 16 :=
  #v[.decided .noRot, .decided .ccw,   .decided .cw,    .sentinel,
     .decided .cw,    .decided .noRot, .sentinel,       .decided .ccw,
     .decided .ccw,   .sentinel,       .decided .noRot, .decided .cw,
     .sentinel,       .decided .cw,    .decided .ccw,   .decided .noRot]

/-- `CLASSIFY(P, N) = Table[P*4 + N]` (41_classifier.md R81). -/
def classify (p n : StateCode) : Classification := classifierTable[(tableIndex p n).toFin]

end Sys2Proof.Machine
end

