-- ==== Sys2Proof/Machine/Flags.lean ====
section
/-! DEFINITION. The block's one status value: the decided direction, how it is resolved, its codes, and the indicator output; with the values and codes of decisions and classifications. -/

namespace Sys2Proof.Machine

/-- The integer a decision is: CW +1, CCW -1, none 0 (00_scope.md R13). -/
def decisionValue : Decision → Int
  | .noRot => 0
  | .cw => 1
  | .ccw => -1

/-- The integer a classification is; the sentinel is 2 (00_scope.md R13). -/
def classificationValue : Classification → Int
  | .decided d => decisionValue d
  | .sentinel => 2

/-- The 2-bit code of a decision (30_encoding.md R63). -/
def decisionCode : Decision → ValueCode
  | .noRot => 0b00
  | .cw => 0b01
  | .ccw => 0b11

/-- The 2-bit code of a classification (30_encoding.md R63). -/
def classificationCode : Classification → ValueCode
  | .decided d => decisionCode d
  | .sentinel => 0b10

/-- The 2-bit code of `DIR` (30_encoding.md R64). -/
def directionCode : Direction → ValueCode
  | .none => 0b00
  | .cw => 0b01
  | .ccw => 0b11

/-- `dir(d)`, the direction of a decision (00_scope.md R13). -/
def directionOf : Decision → Direction
  | .noRot => .none
  | .cw => .cw
  | .ccw => .ccw

/-- The direction a full window resolves to (42_filter_voter.md R93). -/
def majority (tcw tccw : Nat) : Direction :=
  if tcw > tccw then .cw else if tccw > tcw then .ccw else .none

/-- The one-hot indicator pattern of a direction (30_encoding.md R65). -/
def oneHot : Direction → IndWord
  | .cw => 0b001
  | .ccw => 0b010
  | .none => 0b100

/-- The output `IND`, always the one-hot pattern of `DIR` (10_state.md R29). -/
def State.ind (s : State) : IndWord := oneHot s.regs.dir

end Sys2Proof.Machine
end

