-- ==== Sys2Proof/Machine/FilterVoter.lean ====
section
/-! DEFINITION. The Bounce Filter and Majority Voter: the EDGE event in the modes VOTE, DIRECT and PULSE (42_filter_voter.md). -/

namespace Sys2Proof.Machine

/-- The decision a classification leads to: the classification itself, or on the sentinel the last
trusted decision in its place (42_filter_voter.md R91). -/
def trusted (old : Decision) : Classification → Decision
  | .sentinel => old
  | .decided d => d

/-- Steps 1 to 3, the decision taken (42_filter_voter.md R91). -/
def takeDecision (n : StateCode) (r : Regs) : Decision := trusted r.oldRot (classify r.state n)

/-- Steps 1 to 3, the pair: accepted into `STATE`, but on the sentinel kept out (42_filter_voter.md R91). -/
def acceptPair (n : StateCode) (r : Regs) : Regs :=
  match classify r.state n with
  | .sentinel => r
  | .decided _ => r.setState n

/-- Step 4: tally the decision (42_filter_voter.md R92). -/
def tally (c : Config) (d : Decision) (r : Regs) : Regs :=
  match d with
  | .cw => r.setTcw c (r.tcw + 1)
  | .ccw => r.setTccw c (r.tccw + 1)
  | .noRot => r

/-- What a resolved window does to `ACC`: a CW window lowers it by `EP`, a CCW window raises it, a tie
leaves it (42_filter_voter.md R93). -/
def creditWindow (c : Config) (verdict : Direction) (r : Regs) : Regs :=
  match verdict with
  | .cw => r.setAcc c (r.acc - c.ep)
  | .ccw => r.setAcc c (r.acc + c.ep)
  | .none => r

/-- Step 5: resolve the window when the tallies add up to `EP` (42_filter_voter.md R93). -/
def resolveWindow (c : Config) (r : Regs) : Regs :=
  if r.tcw + r.tccw = c.ep then
    let verdict := majority r.tcw r.tccw
    (((creditWindow c verdict r).setDir verdict).setTcw c 0).setTccw c 0
  else r

/-- The EDGE event in mode VOTE, steps 1 to 6 (42_filter_voter.md R95). -/
def edgeVote (c : Config) (n : StateCode) (r : Regs) : Regs :=
  let d := takeDecision n r
  (resolveWindow c (tally c d (acceptPair n r))).setOldRot d

/-- The EDGE event in mode DIRECT (42_filter_voter.md R100). -/
def edgeDirect (c : Config) (n : StateCode) (r : Regs) : Regs :=
  match classify r.state n with
  | .sentinel => r
  | .decided d =>
    (((r.setState n).setOldRot d).setDir (directionOf d)).setAcc c (r.acc - decisionValue d)

/-- Does channel A going from `aPrev` to `a` make the edge that counts? (42_filter_voter.md R105) -/
def isPulse : PulseEdge → (aPrev a : Bool) → Bool
  | .rising, aPrev, a => !aPrev && a
  | .falling, aPrev, a => aPrev && !a
  | .both, aPrev, a => aPrev != a

/-- The EDGE event in mode PULSE (42_filter_voter.md R105). -/
def edgePulse (c : Config) (n : StateCode) (r : Regs) : Regs :=
  let counted := if isPulse c.pulseEdge (channelA r.state) (channelA n) then r.setPcnt c (r.pcnt + 1) else r
  counted.setState n

/-- The EDGE event, by mode (42_filter_voter.md R90). -/
def edgeRegs (c : Config) (n : StateCode) (r : Regs) : Regs :=
  match c.mode with
  | .vote => edgeVote c n r
  | .direct => edgeDirect c n r
  | .pulse => edgePulse c n r

/-- `EDGE a,b` (42_filter_voter.md R90). -/
def execEdge (a b : Bool) (s : State) : Host.Outcome State Fault Refusal :=
  onRegs s (edgeRegs s.cfg (pairCode a b))

end Sys2Proof.Machine
end

