-- ==== Sys2Proof/Machine/RateEncoding.lean ====
section
/-! DEFINITION. `RATE_ENC` and the output RATE: the default IEEE 754 binary64 encoding of a non-negative rational, rounded to nearest with ties to even (30_encoding.md R66). -/

namespace Sys2Proof.Machine

/-- `n / d` rounded to the nearest integer, a tie to the even one. -/
def roundHalfEven (n d : Nat) : Nat :=
  let k := n / d
  let rem := n % d
  if 2 * rem < d then k else if 2 * rem > d then k + 1 else k + k % 2

/-- The exponent `e` with `2^e ≤ n/d < 2^(e+1)`, for `n` and `d` positive. -/
def floorLog2 (n d : Nat) : Int :=
  let e := (n.log2 : Int) - d.log2
  if d * 2 ^ e.toNat ≤ n * 2 ^ (-e).toNat then e else e - 1

/-- `n / d` as a binary64 magnitude, the 63 bits of exponent and fraction read as one number, for `n`
and `d` positive: rounded to a whole number of units in the last place, 52 places below the leading
bit or, for a subnormal, at `2^-1074`. A rounding up to the next power of two carries into the
exponent by itself. -/
def binary64Magnitude (n d : Nat) : Nat :=
  let e := max (floorLog2 n d) (-1022)
  let ulp := e - 52
  (e + 1022).toNat * 2 ^ 52 + roundHalfEven (n * 2 ^ (-ulp).toNat) (d * 2 ^ ulp.toNat)

/-- Positive infinity, the word above every finite binary64 number (log 9). -/
def binary64Infinity : RateWord := 0x7FF0000000000000

/-- The word of `q` under the default `RATE_ENC`: the binary64 word nearest to `q`, ties to even
(30_encoding.md R66), and from the rates on that round beyond the largest finite number the infinity
that IEEE 754 rounding to nearest gives (00_scope.md R7; log 9). The sign is 0. -/
def binary64Word (q : Rat) : RateWord :=
  if q < 0 then (0 : BitVec 1) ++ Config.rateOfNegative q
  else if q = 0 then 0
  else BitVec.ofNat 64 (min (binary64Magnitude q.num.toNat q.den) binary64Infinity.toNat)

/-- Is the word a finite binary64 number: its biased exponent `w[62:52]` is not all ones? -/
def isFiniteBinary64 (w : RateWord) : Bool := w.extractLsb' 52 11 != 0x7FF

/-- How many of the least subnormal number `2^-1074` make one. -/
def subnormalsPerOne : Rat := 2 ^ 1074

/-- The magnitude of a finite binary64 word: the fraction `w[51:0]` in units of `2^-1074` where the
biased exponent `w[62:52]` is 0, and `2^52` more of them, doubled for every further step of the
exponent, elsewhere (30_encoding.md R66; log 9). -/
def binary64Value (w : RateWord) : Rat :=
  let exponent := (w.extractLsb' 52 11).toNat
  let fraction := (w.extractLsb' 0 52).toNat
  let units := if exponent = 0 then fraction else (2 ^ 52 + fraction) * 2 ^ (exponent - 1)
  (units : Rat) / subnormalsPerOne

/-- Rates from here on round to infinity: `2^1024 - 2^970`, halfway from the largest finite binary64
number to `2^1024`, where the tie goes to the even side (log 9). -/
def binary64Limit : Rat := 2 ^ 1024 - 2 ^ 970

/-- `RATE_ENC` (00_scope.md R7). -/
def encodeRate : RateEncoding → Rat → RateWord
  | .binary64, q => binary64Word q
  | .other which, q => Config.otherRateEncoding which q

/-- The output `RATE`, at all times `RATE_ENC(RATE_Q)` (43_rate_estimator.md R123). -/
def State.rate (s : State) : RateWord := encodeRate s.cfg.rateEnc s.regs.rateQ

/-- Byte `i` of RATE, byte 0 holding `RATE[7:0]`. -/
def rateByte (w : RateWord) (i : Nat) : BitVec 8 := w.extractLsb' (8 * i) 8

/-- The eight bytes of RATE as an integrator's byte bus lays them out, lowest address first
(20_memory.md R51; log 12). -/
def rateBusBytes (c : Config) (w : RateWord) : List (BitVec 8) :=
  match c.rateByteOrder with
  | .little => (List.range 8).map (rateByte w)
  | .big => ((List.range 8).map (rateByte w)).reverse

end Sys2Proof.Machine
end

