-- ==== Sys2Proof/Machine/RateEstimator.lean ====
section
/-! DEFINITION. The Speed Estimator: the OVF event, the sample, and the host read (43_rate_estimator.md). -/

namespace Sys2Proof.Machine

/-- A count of 1/`CPR` revolutions in one sample time, as revolutions per second, exactly
(43_rate_estimator.md R121, R122; log 13). -/
def rateOf (c : Config) (count : Nat) : Rat := (count : Rat) / ((c.cpr : Rat) * c.t)

/-- `SAMPLE()`: from `|ACC|` in the modes VOTE and DIRECT (43_rate_estimator.md R121), from `PCNT` in
mode PULSE (R122). -/
def sampleRegs (c : Config) (r : Regs) : Regs :=
  match c.mode with
  | .vote => (r.setRateQ (rateOf c r.acc.natAbs)).setAcc c 0
  | .direct => (r.setRateQ (rateOf c r.acc.natAbs)).setAcc c 0
  | .pulse => (r.setRateQ (rateOf c r.pcnt)).setPcnt c 0

/-- The OVF event on the registers (43_rate_estimator.md R120). -/
def ovfRegs (c : Config) (r : Regs) : Regs :=
  let counted := r.setOvfCnt c (r.ovfCnt - 1)
  if counted.ovfCnt = 0 then (sampleRegs c counted).setOvfCnt c c.nOvf else counted

/-- `OVF` (43_rate_estimator.md R120). -/
def execOvf (s : State) : Host.Outcome State Fault Refusal := onRegs s (ovfRegs s.cfg)

/-- What the host reads: RATE and IND of one state (43_rate_estimator.md R127). -/
def State.outputs (s : State) : HostRead := ⟨s.rate, s.ind⟩

/-- `HRD`: the outputs go to the host; no register is written (43_rate_estimator.md R127). -/
def execHrd (s : State) : Host.Outcome State Fault Refusal :=
  whenReset s (.next { s with hostRead := some s.outputs })

end Sys2Proof.Machine
end

