-- ==== Sys2Proof/Machine/Control.lean ====
section
/-! DEFINITION. The control events RST, IDLE and EDGE_OVF (44_control_events.md). -/

namespace Sys2Proof.Machine

/-- The registers a RST event leaves, each at its reset value (44_control_events.md R140). -/
def rstRegs (c : Config) (p : StateCode) : Regs where
  state  := p
  oldRot := .noRot
  tcw    := 0
  tccw   := 0
  acc    := 0
  pcnt   := 0
  dir    := .none
  rateQ  := 0
  ovfCnt := c.nOvf

/-- `RST a,b`: legal at any time (44_control_events.md R140). -/
def execRst (a b : Bool) (s : State) : Host.Outcome State Fault Refusal :=
  whenBuilt s (.next { s with rstSeen := true, regs := rstRegs s.cfg (pairCode a b) })

/-- `IDLE`: the state is unchanged (44_control_events.md R141). -/
def execIdle (s : State) : Host.Outcome State Fault Refusal := onRegs s id

/-- `EDGE_OVF a,b`: EDGE, then OVF on the state the EDGE left, in one atomic event
(44_control_events.md R142). -/
def execEdgeOvf (a b : Bool) (s : State) : Host.Outcome State Fault Refusal :=
  onRegs s (fun r => ovfRegs s.cfg (edgeRegs s.cfg (pairCode a b) r))

end Sys2Proof.Machine
end

