-- ==== Sys2Proof/Machine/Dispatch.lean ====
section
/-! DEFINITION. One arm per instruction: the meaning each one has. -/

namespace Sys2Proof.Machine

def exec (i : Instr) (s : State) : Host.Outcome State Fault Refusal :=
  match i with
  -- control events
  | .rst a b => Sys2Proof.Machine.execRst a b s
  | .idle => Sys2Proof.Machine.execIdle s
  -- the encoder lines
  | .edge a b => Sys2Proof.Machine.execEdge a b s
  -- the timer
  | .ovf => Sys2Proof.Machine.execOvf s
  | .edgeOvf a b => Sys2Proof.Machine.execEdgeOvf a b s
  -- the host
  | .hrd => Sys2Proof.Machine.execHrd s

end Sys2Proof.Machine
end

