-- ==== Sys2Proof/Machine/Step.lean ====
section
/-! DEFINITION. One step of the machine: what is presented next is decoded and executed. -/

namespace Sys2Proof.Machine

/-- One step: the next input is taken, decoded and executed; with nothing presented, the block does
nothing (20_memory.md R55, R56; 60_exceptions.md R162; log 3, log 4). -/
def step (s : State) : Host.Outcome State Fault Refusal :=
  match nextInput s with
  | some (x, s') => exec (decode x) s'
  | none => betweenEvents s

/-- `s` with an opcode-table row's bits presented next (log 5, log 15): the block has no program
counter, so an instruction is run by presenting it (10_state.md R35). -/
def State.withFetchWord (s : State) (nbits w : Nat) : State :=
  match tableInput nbits w with
  | some x => { s with input := x :: s.input }
  | none => s

end Sys2Proof.Machine
end

