-- ==== Sys2Proof/Machine/Pseudo.lean ====
section
/-! DEFINITION. The expansions of the pseudo-instructions (30_encoding.md R73). -/

namespace Sys2Proof.Machine

/-- The instructions a pseudo-instruction stands for, in the state before the first of them
(30_encoding.md R73). -/
def expand (r : Regs) : Pseudo → List Instr
  | .rstS s => [.rst s[1] s[0]]
  | .edgeS s => [.edge s[1] s[0]]
  | .sample => List.replicate r.ovfCnt .ovf
  | .hold n => List.replicate n .idle

end Sys2Proof.Machine
end

