-- ==== Sys2Proof/Safety.lean ====
section
/-! DEFINITION. The terms claims are made in: which states are reachable in kind (the invariant), what a safe run is, how a stream of events is run, and the spec's own descriptions of what a stream amounts to. -/

namespace Sys2Proof.Machine

/-- The block is built (00_scope.md R9) and has been reset (70_reset_and_hazards.md R170). -/
abbrev State.Ready (s : State) : Prop := s.cfg.Valid ∧ s.rstSeen = true

/-- What holds of the registers between events: the tallies are short of a window (10_state.md R25),
every register is within its width (R23 to R27, R31) and the rate is non-negative (R30), `OVF_CNT` is
in `1 .. N_OVF` (R31), and the registers a mode never writes stand at their reset values
(42_filter_voter.md R106; in DIRECT, `DIR` follows `OLD_ROT`, R100). -/
abbrev Regs.Inv (c : Config) (r : Regs) : Prop :=
  r.tcw + r.tccw < c.ep
  ∧ (-(2 ^ (c.accW - 1) : Int) ≤ r.acc ∧ r.acc < 2 ^ (c.accW - 1))
  ∧ r.pcnt < 2 ^ c.pcntW
  ∧ 0 ≤ r.rateQ
  ∧ (1 ≤ r.ovfCnt ∧ r.ovfCnt ≤ c.nOvf)
  ∧ (c.mode ≠ .vote → r.tcw = 0 ∧ r.tccw = 0)
  ∧ (c.mode ≠ .pulse → r.pcnt = 0)
  ∧ (c.mode = .direct → r.dir = directionOf r.oldRot)
  ∧ (c.mode = .pulse → r.acc = 0 ∧ r.dir = .none ∧ r.oldRot = .noRot)

/-- The invariant of a block in use. -/
abbrev State.Inv (s : State) : Prop := s.Ready ∧ s.regs.Inv s.cfg

/-- A run that never stops: however many steps are taken, the machine answers a next state. -/
def SafeRun (s : State) : Prop := ∀ k, ∃ t, Sys2Proof.core.run k s = .next t

/-- `s` with a stream of instructions presented, and nothing else. -/
def State.presenting (s : State) (is : List Instr) : State := { s with input := is.map encode }

/-- The stream presented to `s`, run to its end. -/
def runAll (s : State) (is : List Instr) : Host.Outcome State Fault Refusal :=
  Sys2Proof.core.run is.length (s.presenting is)

/-- The EDGE event that carries the pair with state code `n` (30_encoding.md R73, `EDGE_S`). -/
def edgeTo (n : StateCode) : Instr := .edge n[1] n[0]

/-- The pairs a stream presents with its EDGE and EDGE_OVF events. -/
def pairsOf (is : List Instr) : List StateCode :=
  is.filterMap (fun i => match i with
    | .edge a b => some (pairCode a b)
    | .edgeOvf a b => some (pairCode a b)
    | .rst _ _ => none
    | .idle => none
    | .ovf => none
    | .hrd => none)

/-- Does the instruction carry a timer overflow? -/
def isOverflow : Instr → Bool
  | .ovf => true
  | .edgeOvf _ _ => true
  | .rst _ _ => false
  | .idle => false
  | .edge _ _ => false
  | .hrd => false

/-- Is the instruction a RST? -/
def isRst : Instr → Bool
  | .rst _ _ => true
  | .idle => false
  | .edge _ _ => false
  | .ovf => false
  | .edgeOvf _ _ => false
  | .hrd => false

/-- A stream within one sample period: no RST in it, and fewer overflows than are still to come before
the sample boundary (43_rate_estimator.md R120). -/
abbrev WithinPeriod (r : Regs) (is : List Instr) : Prop :=
  is.all (fun i => !isRst i) = true ∧ is.countP isOverflow < r.ovfCnt

/-! What a stream of EDGE events amounts to, said without the registers. -/

/-- The last accepted pair after a transition to `n`: `n`, or on the sentinel the pair before it
(42_filter_voter.md R91, R100). -/
def nextPair (p n : StateCode) : StateCode :=
  match classify p n with
  | .sentinel => p
  | .decided _ => n

/-- The last pair accepted on a stream of pairs, from the last accepted pair `p`. -/
def lastAccepted (p : StateCode) (ns : List StateCode) : StateCode := ns.foldl nextPair p

/-- The decisions mode VOTE takes on a stream of pairs, from the last accepted pair `p` and the last
trusted decision `old` (42_filter_voter.md R91, R94). -/
def decisions (p : StateCode) (old : Decision) : List StateCode → List Decision
  | [] => []
  | n :: ns =>
    trusted old (classify p n) :: decisions (nextPair p n) (trusted old (classify p n)) ns

/-- The decisions that count toward the poll window: the nonzero ones (42_filter_voter.md R92, R97). -/
def votes (ds : List Decision) : List Decision := ds.filter (fun d => d ≠ .noRot)

/-- The votes already tallied in a window that is not yet full (43_rate_estimator.md R125: tallies are
carried across a sample boundary). -/
def carriedVotes (r : Regs) : List Decision :=
  List.replicate r.tcw .cw ++ List.replicate r.tccw .ccw

/-- Every vote the block has after a stream of pairs, in order, the carried ones first. -/
def votesOf (r : Regs) (ns : List StateCode) : List Decision :=
  carriedVotes r ++ votes (decisions r.state r.oldRot ns)

/-- The `j`-th poll window of a list of votes. -/
def pollWindow (ep j : Nat) (vs : List Decision) : List Decision := (vs.drop (j * ep)).take ep

/-- The votes after the last full window. -/
def openWindow (ep : Nat) (vs : List Decision) : List Decision := vs.drop (vs.length / ep * ep)

/-- The majority of a window's votes (42_filter_voter.md R93). -/
def verdictOf (vs : List Decision) : Direction := majority (vs.count .cw) (vs.count .ccw)

/-- A resolved window counts +1 for CCW, -1 for CW and 0 for a tie (43_rate_estimator.md R125: "the
number of CCW windows minus the number of CW windows"). -/
def verdictValue : Direction → Int
  | .cw => -1
  | .ccw => 1
  | .none => 0

/-- The number of CCW windows minus the number of CW windows among the full windows of a list of votes. -/
def windowBalance (ep : Nat) (vs : List Decision) : Int :=
  ((List.range (vs.length / ep)).map (fun j => verdictValue (verdictOf (pollWindow ep j vs)))).sum

/-- The decisions mode DIRECT accepts on a stream of pairs: the sentinels are ignored entirely
(42_filter_voter.md R100). -/
def acceptedDecisions (p : StateCode) : List StateCode → List Decision
  | [] => []
  | n :: ns =>
    match classify p n with
    | .sentinel => acceptedDecisions p ns
    | .decided d => d :: acceptedDecisions n ns

/-- The counted edges in a sequence of channel-A values (42_filter_voter.md R105). -/
def pulsesIn (e : PulseEdge) (as : List Bool) : Nat := ((as.zip as.tail).filter (fun x => isPulse e x.1 x.2)).length

/-- One step of a shaft turning counter-clockwise: 0 → 1 → 3 → 2 → 0 (41_classifier.md R83 (e)). -/
def turnCcw (s : StateCode) : StateCode :=
  if s = 0 then 1 else if s = 1 then 3 else if s = 3 then 2 else 0

/-- One step of a shaft turning clockwise: 0 → 2 → 3 → 1 → 0 (41_classifier.md R83 (e)). -/
def turnCw (s : StateCode) : StateCode :=
  if s = 0 then 2 else if s = 2 then 3 else if s = 3 then 1 else 0

/-- One step of a shaft turning the way a decision names; no rotation leaves it. -/
def turn : Decision → StateCode → StateCode
  | .noRot, s => s
  | .cw, s => turnCw s
  | .ccw, s => turnCcw s

/-- The other way round. -/
def opposite : Decision → Decision
  | .noRot => .noRot
  | .cw => .ccw
  | .ccw => .cw

end Sys2Proof.Machine
end

