-- ==== Sys2Proof/Certificates/Slice0/Obligations.lean ====
section
/-! DEFINITION. The statements for the provers. Each one's docstring says which rule of the spec it formalises. -/

open Sys2Proof Sys2Proof.Machine

/-! ## Encodings (30_encoding.md) -/

/-- Words written out from the spec's own vectors (95_test_vectors.md 2.2, 2.6 and section 3) decode to
the events the vectors name. -/
def Obligations.WordsOfTheVectorsDecode : Prop :=
  decode (.event 0b10010) = .rst true false ∧ decode (.event 0b11101) = .rst false true ∧
  decode (.event 0b00011) = .idle ∧ decode (.event 0b00101) = .edge false true ∧
  decode (.event 0b01011) = .ovf ∧ decode (.event 0b01110) = .edgeOvf true false ∧
  decode .hostRead = .hrd

/-- R67: every event word decodes by the table of that rule, RST over every other bit, and EDGE_OVF is
EDGE followed by OVF within the same step. -/
def Obligations.DecodeFollowsTheEventTable : Prop :=
  (∀ w : EventWord, decode (.event w) =
    if w[4] then .rst w[1] w[0]
    else if w[3] then (if w[2] then .edgeOvf w[1] w[0] else .ovf)
    else (if w[2] then .edge w[1] w[0] else .idle)) ∧
  (∀ (s : State) (a b : Bool), exec (.edgeOvf a b) s =
    match exec (.edge a b) s with
    | .next t => exec .ovf t
    | .fault f => .fault f
    | .refused f => .refused f)

/-- Every event word is claimed by exactly one row of the opcode table, and decodes to that row's event. -/
def Obligations.EveryWordHasOneOpcodeRow : Prop :=
  ∀ w : EventWord, ∃ r ∈ opcodeRows, r.claims w = true ∧ (decode (.event w)).mnemonic = r.mnemonic ∧
    ∀ r' ∈ opcodeRows, r'.claims w = true → r' = r

/-- Decoding and encoding agree both ways: an instruction's word decodes to it, and a word decodes to an
instruction exactly when it agrees with that instruction's word on every bit the event reads. -/
def Obligations.DecodeAndEncodeAgree : Prop :=
  (∀ i : Instr, decode (encode i) = i) ∧
  (∀ (w : EventWord) (i : Instr), decode (.event w) = i ↔
    ∃ e, encode i = .event e ∧ w &&& i.careBits = e &&& i.careBits)

/-- R68: RST, EDGE and EDGE_OVF take `a = EVT[1]` and `b = EVT[0]`, with new state code `{a, b}`; RST
ignores `EVT[3:2]`, IDLE and OVF ignore `EVT[1:0]`, and the result of a step does not depend on them. -/
def Obligations.DontCareBitsDoNotMatter : Prop :=
  (∀ (s : State) (rest : List Input) (w w' : EventWord),
    w &&& (decode (.event w)).careBits = w' &&& (decode (.event w)).careBits →
    step { s with input := .event w :: rest } = step { s with input := .event w' :: rest }) ∧
  (∀ (w : EventWord) (a b : Bool), (decode (.event w) = .rst a b ∨ decode (.event w) = .edge a b ∨
    decode (.event w) = .edgeOvf a b) → a = w[1] ∧ b = w[0]) ∧
  (∀ a b : Bool, Instr.careBits (.rst a b) = 0b10011 ∧ Instr.careBits (.edge a b) = 0b11111 ∧
    Instr.careBits (.edgeOvf a b) = 0b11111) ∧
  Instr.careBits .idle = 0b11100 ∧ Instr.careBits .ovf = 0b11100 ∧
  (∀ w : EventWord, pairCode w[1] w[0] = w.extractLsb' 0 2)

/-- R61, R62: the state code is `2*A + B`; the table index is `P*4 + N`. -/
def Obligations.StateCodeAndTableIndex : Prop :=
  (∀ a b : Bool, (pairCode a b).toNat = 2 * a.toNat + b.toNat) ∧
  (∀ p n : StateCode, (tableIndex p n).toNat = p.toNat * 4 + n.toNat ∧
    (tableIndex p n).extractLsb' 2 2 = p ∧ (tableIndex p n).extractLsb' 0 2 = n)

/-- R63, R64: the 2-bit codes, the code `0b10` being the sentinel's alone: neither `OLD_ROT` nor `DIR`
ever holds it. -/
def Obligations.ValueCodesAreAsListed : Prop :=
  classificationCode (.decided .noRot) = 0b00 ∧ classificationCode (.decided .cw) = 0b01 ∧
  classificationCode (.decided .ccw) = 0b11 ∧ classificationCode .sentinel = 0b10 ∧
  directionCode .none = 0b00 ∧ directionCode .cw = 0b01 ∧ directionCode .ccw = 0b11 ∧
  (∀ s : State, decisionCode s.regs.oldRot = classificationCode (.decided s.regs.oldRot) ∧
    decisionCode s.regs.oldRot ≠ 0b10 ∧ directionCode s.regs.dir ≠ 0b10)

/-! ## The classifier (41_classifier.md) -/

/-- R80, R81: the table's sixteen entries, read at `P*4 + N`. -/
def Obligations.ClassifierTableEntries : Prop :=
  (List.finRange 16).map (fun i => classificationValue (classifierTable[i])) =
    [0, -1, 1, 2, 1, 0, 2, -1, -1, 2, 0, 1, 2, 1, -1, 0] ∧
  ∀ p n : StateCode, classifierTable[p.toNat * 4 + n.toNat]? = some (classify p n)

/-- R83: (a) no change is 0; (b) a one-bit change is ±1 and its reverse the negative; (c) a two-bit
change, and nothing else, is the sentinel; (d) each row and each column holds each value once; (e) the
two Gray cycles are all -1 and all +1. -/
def Obligations.ClassifierTableProperties : Prop :=
  (∀ p : StateCode, classificationValue (classify p p) = 0) ∧
  (∀ p n : StateCode, (p ^^^ n = 1 ∨ p ^^^ n = 2) →
    classificationValue (classify p n) = -classificationValue (classify n p) ∧
    (classificationValue (classify p n) = 1 ∨ classificationValue (classify p n) = -1)) ∧
  (∀ p n : StateCode, classificationValue (classify p n) = 2 ↔ n = p ^^^ 3) ∧
  (∀ (p : StateCode) (v : Int), v ∈ [0, 1, -1, 2] →
    (∃! n, classificationValue (classify p n) = v) ∧ (∃! n, classificationValue (classify n p) = v)) ∧
  (classify 0 1 = .decided .ccw ∧ classify 1 3 = .decided .ccw ∧ classify 3 2 = .decided .ccw ∧
    classify 2 0 = .decided .ccw) ∧
  (classify 0 2 = .decided .cw ∧ classify 2 3 = .decided .cw ∧ classify 3 1 = .decided .cw ∧
    classify 1 0 = .decided .cw)

/-! ## Arithmetic and widths (00_scope.md) -/

/-- `wrap_s(W, v)` is the one integer in `-2^(W-1) .. 2^(W-1)-1` that is congruent to `v` modulo `2^W`, and
`wrap_u(W, v)` is `v mod 2^W` (R11). -/
def Obligations.WrapAroundStaysInRangeAndCongruent : Prop :=
  (∀ (w : Nat) (v r : Int), 1 ≤ w →
    (r = wrapS w v ↔ -(2 ^ (w - 1) : Int) ≤ r ∧ r < 2 ^ (w - 1) ∧ (2 ^ w : Int) ∣ r - v)) ∧
  (∀ (w : Nat) (v : Int), (wrapU w v : Int) = v % 2 ^ w)

/-- R8: TALLY_W and OVF_W are the least widths that hold EP and N_OVF, and on a block in use the tallies,
also the one an EDGE is counting up, and OVF_CNT fit in them. -/
def Obligations.WidthsAreLeastAndSuffice : Prop :=
  (∀ (c : Config) (w : Nat), (tallyW c ≤ w ↔ c.ep < 2 ^ w) ∧ (ovfW c ≤ w ↔ c.nOvf < 2 ^ w)) ∧
  (∀ s : State, s.Inv → s.regs.tcw + 1 < 2 ^ tallyW s.cfg ∧ s.regs.tccw + 1 < 2 ^ tallyW s.cfg ∧
    s.cfg.ep < 2 ^ tallyW s.cfg ∧ s.regs.ovfCnt < 2 ^ ovfW s.cfg ∧ s.cfg.nOvf < 2 ^ ovfW s.cfg)

/-! ## Steps and their order (20_memory.md) -/

/-- A step takes the next input, decodes it and executes it on the state with that input gone (the order
is R55's and R56's; that what is presented is a list in State, of which a step takes one entry, is the
model's reading, log 4). -/
def Obligations.StepRunsTheDecodedInput : Prop :=
  ∀ (s : State) (x : Input) (rest : List Input), s.input = x :: rest →
    step s = exec (decode x) { s with input := rest }

/-- With nothing presented, a step leaves the whole state as it is (R162: the block "does nothing
between events"; the model's reading, log 4). -/
def Obligations.StepWithNothingPresentedKeepsTheState : Prop :=
  ∀ s : State, s.input = [] → s.cfg.Valid → step s = .next s

/-- A host read presented after an event returns RATE and IND of the state that event left (R56), and
changes nothing else. The list of what is presented and the field `hostRead` are the model's (log 4,
log 7). -/
def Obligations.HostReadSeesTheLastEvent : Prop :=
  ∀ (s u : State) (i : Instr), exec i { s with input := [] } = .next u →
    runAll s [i, .hrd] = .next { u with hostRead := some ⟨u.rate, u.ind⟩ }

/-! ## Control events (44_control_events.md) -/

/-- R140: RST, at any time, sets every register to its reset value, STATE to the pair it carries; the
bits `EVT[3:2]` of its word are ignored. Nothing else changes but that a RST has now been applied. -/
def Obligations.RstSetsEveryRegister : Prop :=
  (∀ w : EventWord, w[4] = true → decode (.event w) = .rst w[1] w[0]) ∧
  ∀ (s : State) (a b : Bool), s.cfg.Valid → ∃ t, exec (.rst a b) s = .next t ∧
    t = { s with rstSeen := true, regs := {
      state := pairCode a b, oldRot := .noRot, tcw := 0, tccw := 0, acc := 0, pcnt := 0,
      dir := .none, rateQ := 0, ovfCnt := s.cfg.nOvf } } ∧
    t.ind = 0b100 ∧ t.rate = encodeRate s.cfg.rateEnc 0

/-- R141: IDLE, whatever pair its word carries, changes nothing. -/
def Obligations.IdleChangesNothing : Prop :=
  (∀ w : EventWord, w.extractLsb' 2 3 = 0b000 → decode (.event w) = .idle) ∧
  ∀ s : State, s.Ready → exec .idle s = .next s

/-- R142: EDGE_OVF completes, with the effect of EDGE and then OVF on the state the EDGE left. -/
def Obligations.EdgeOvfIsEdgeThenOvf : Prop :=
  (∀ w : EventWord, w.extractLsb' 2 3 = 0b011 → decode (.event w) = .edgeOvf w[1] w[0]) ∧
  ∀ (s : State) (a b : Bool), s.Ready → ∃ t u, exec (.edge a b) s = .next t ∧ exec .ovf t = .next u ∧
    exec (.edgeOvf a b) s = .next u

/-! ## The EDGE event (42_filter_voter.md) -/

/-- R91 to R95: EDGE in mode VOTE. The premise on the tallies is R25, part of the invariant that every
step keeps. -/
def Obligations.EdgeInVoteMode : Prop :=
  ∀ (s : State) (a b : Bool), s.Ready → s.cfg.mode = .vote → s.regs.tcw + s.regs.tccw < s.cfg.ep →
    let n := pairCode a b
    let c := classify s.regs.state n
    let d := match c with
      | .sentinel => s.regs.oldRot
      | .decided d => d
    let tcw := if d = .cw then s.regs.tcw + 1 else s.regs.tcw
    let tccw := if d = .ccw then s.regs.tccw + 1 else s.regs.tccw
    exec (.edge a b) s = .next { s with regs := { s.regs with
      state := if c = .sentinel then s.regs.state else n
      oldRot := d
      tcw := if tcw + tccw = s.cfg.ep then 0 else tcw
      tccw := if tcw + tccw = s.cfg.ep then 0 else tccw
      dir := if tcw + tccw = s.cfg.ep then
          (if tcw > tccw then .cw else if tccw > tcw then .ccw else .none) else s.regs.dir
      acc := if tcw + tccw = s.cfg.ep then
          (if tcw > tccw then wrapS s.cfg.accW (s.regs.acc - s.cfg.ep)
           else if tccw > tcw then wrapS s.cfg.accW (s.regs.acc + s.cfg.ep) else s.regs.acc)
        else s.regs.acc } }

/-- R100: EDGE in mode DIRECT. An accepted transition writes STATE, OLD_ROT, DIR and ACC; the sentinel
writes nothing. -/
def Obligations.EdgeInDirectMode : Prop :=
  ∀ (s : State) (a b : Bool), s.Ready → s.cfg.mode = .direct →
    let after : Regs := match classify s.regs.state (pairCode a b) with
      | .sentinel => s.regs
      | .decided d => { s.regs with
          state := pairCode a b
          oldRot := d
          dir := if d = .noRot then .none else if d = .cw then .cw else .ccw
          acc := wrapS s.cfg.accW (s.regs.acc - (if d = .noRot then 0 else if d = .cw then 1 else -1)) }
    exec (.edge a b) s = .next { s with regs := after }

/-- R105: EDGE in mode PULSE. STATE takes the raw pair; PCNT counts the edges of channel A that
PULSE_EDGE names, wrapping at its width. -/
def Obligations.EdgeInPulseMode : Prop :=
  ∀ (s : State) (a b : Bool), s.Ready → s.cfg.mode = .pulse →
    let aPrev := s.regs.state[1]
    let pulse := (s.cfg.pulseEdge = .rising ∧ aPrev = false ∧ a = true) ∨
      (s.cfg.pulseEdge = .falling ∧ aPrev = true ∧ a = false) ∨
      (s.cfg.pulseEdge = .both ∧ aPrev ≠ a)
    exec (.edge a b) s = .next { s with regs := { s.regs with
      state := pairCode a b
      pcnt := if pulse then (s.regs.pcnt + 1) % 2 ^ s.cfg.pcntW else s.regs.pcnt } }

/-- What EDGE leaves alone, from any state and by mode (the "never" entries of R106, and its "on
accepted" and "at resolution" ones for what stays otherwise). -/
def Obligations.EdgeFrameByMode : Prop :=
  ∀ (s t : State) (a b : Bool), exec (.edge a b) s = .next t →
    t.cfg = s.cfg ∧ t.rstSeen = s.rstSeen ∧ t.input = s.input ∧ t.hostRead = s.hostRead ∧
    t.regs.rateQ = s.regs.rateQ ∧ t.regs.ovfCnt = s.regs.ovfCnt ∧
    (s.cfg.mode ≠ .pulse → t.regs.pcnt = s.regs.pcnt) ∧
    (s.cfg.mode ≠ .vote → t.regs.tcw = s.regs.tcw ∧ t.regs.tccw = s.regs.tccw) ∧
    (s.cfg.mode = .pulse → t.regs.oldRot = s.regs.oldRot ∧ t.regs.dir = s.regs.dir ∧ t.regs.acc = s.regs.acc) ∧
    (s.cfg.mode ≠ .pulse → classify s.regs.state (pairCode a b) = .sentinel →
      t.regs.state = s.regs.state ∧ t.regs.oldRot = s.regs.oldRot) ∧
    (s.cfg.mode = .direct → classify s.regs.state (pairCode a b) = .sentinel → t.regs = s.regs) ∧
    (s.cfg.mode = .vote → s.regs.tcw + s.regs.tccw + 1 < s.cfg.ep →
      t.regs.dir = s.regs.dir ∧ t.regs.acc = s.regs.acc)

/-- R96: a run of sentinels leaves STATE and OLD_ROT, and each sentinel adds one to the bucket of
OLD_ROT, or nothing where that is 0. A full window clears the buckets (R97), and the run goes on. -/
def Obligations.SentinelRunFeedsOneBucket : Prop :=
  ∀ (s : State) (ns : List StateCode), s.Ready → s.cfg.mode = .vote →
    s.regs.tcw + s.regs.tccw < s.cfg.ep → (∀ n ∈ ns, classify s.regs.state n = .sentinel) →
    ∃ t, runAll s (ns.map edgeTo) = .next t ∧
      t.regs.state = s.regs.state ∧ t.regs.oldRot = s.regs.oldRot ∧
      (s.regs.oldRot = .noRot → t.regs = s.regs) ∧
      (s.regs.oldRot = .cw →
        t.regs.tcw = (if s.regs.tcw + s.regs.tccw + ns.length < s.cfg.ep then s.regs.tcw + ns.length
          else (s.regs.tcw + s.regs.tccw + ns.length) % s.cfg.ep) ∧
        t.regs.tccw = if s.regs.tcw + s.regs.tccw + ns.length < s.cfg.ep then s.regs.tccw else 0) ∧
      (s.regs.oldRot = .ccw →
        t.regs.tccw = (if s.regs.tcw + s.regs.tccw + ns.length < s.cfg.ep then s.regs.tccw + ns.length
          else (s.regs.tcw + s.regs.tccw + ns.length) % s.cfg.ep) ∧
        t.regs.tcw = if s.regs.tcw + s.regs.tccw + ns.length < s.cfg.ep then s.regs.tcw else 0)

/-- R175: what the first EDGE after `k` missed one-bit changes of a shaft turning one way does in mode
VOTE, by `k` modulo 4; where the missed change shows as a sentinel, the shaft's next step is counted
with the wrong sign and STATE is in step again. -/
def Obligations.MissedChangesShowModuloFour : Prop :=
  ∀ (s : State) (way : Decision) (k : Nat), s.Ready → s.cfg.mode = .vote → way ≠ .noRot →
    s.regs.tcw + s.regs.tccw < s.cfg.ep →
    let seen := (turn way)^[k + 1] s.regs.state
    ∃ t, exec (edgeTo seen) s = .next t ∧
      (k % 4 = 0 → t.regs.state = seen ∧ t.regs.oldRot = way) ∧
      (k % 4 = 1 → classify s.regs.state seen = .sentinel ∧ t.regs.state = s.regs.state ∧
        t.regs.oldRot = s.regs.oldRot ∧
        ∃ u, exec (edgeTo (turn way seen)) t = .next u ∧ u.regs.state = turn way seen ∧
          u.regs.oldRot = opposite way) ∧
      (k % 4 = 2 → t.regs.state = seen ∧ t.regs.oldRot = opposite way) ∧
      (k % 4 = 3 → seen = s.regs.state ∧ t.regs = { s.regs with oldRot := .noRot })

/-! ## The speed estimator (43_rate_estimator.md) -/

/-- R120, R121, R122: OVF counts one overflow down; the last one of a sample period also takes the
sample, from `|ACC|` in VOTE and DIRECT and from `PCNT` in PULSE, clears what it sampled, and reloads
the counter. The premise on OVF_CNT is R31, part of the invariant that every step keeps. -/
def Obligations.OvfCountsAndSamples : Prop :=
  (∀ w : EventWord, w.extractLsb' 2 3 = 0b010 → decode (.event w) = .ovf) ∧
  ∀ s : State, s.Ready → 1 ≤ s.regs.ovfCnt → s.regs.ovfCnt ≤ s.cfg.nOvf →
    (s.regs.ovfCnt ≠ 1 →
      exec .ovf s = .next { s with regs := { s.regs with ovfCnt := s.regs.ovfCnt - 1 } }) ∧
    (s.regs.ovfCnt = 1 → s.cfg.mode ≠ .pulse →
      exec .ovf s = .next { s with regs := { s.regs with
        rateQ := ((|s.regs.acc| : Int) : Rat) / ((s.cfg.cpr : Rat) * s.cfg.t)
        acc := 0
        ovfCnt := s.cfg.nOvf } }) ∧
    (s.regs.ovfCnt = 1 → s.cfg.mode = .pulse →
      exec .ovf s = .next { s with regs := { s.regs with
        rateQ := (s.regs.pcnt : Rat) / ((s.cfg.cpr : Rat) * s.cfg.t)
        pcnt := 0
        ovfCnt := s.cfg.nOvf } })

/-- What OVF leaves alone, from any state: everything but OVF_CNT, RATE_Q and the one register its mode
samples (R120 "State written"). -/
def Obligations.OvfFrame : Prop :=
  ∀ s t : State, exec .ovf s = .next t →
    t.cfg = s.cfg ∧ t.rstSeen = s.rstSeen ∧ t.input = s.input ∧ t.hostRead = s.hostRead ∧
    t.regs.state = s.regs.state ∧ t.regs.oldRot = s.regs.oldRot ∧ t.regs.tcw = s.regs.tcw ∧
    t.regs.tccw = s.regs.tccw ∧ t.regs.dir = s.regs.dir ∧
    (s.cfg.mode = .pulse → t.regs.acc = s.regs.acc) ∧ (s.cfg.mode ≠ .pulse → t.regs.pcnt = s.regs.pcnt)

/-- R124 and R123: RATE_Q, and with it the output RATE, changes only at a sample boundary or at RST. -/
def Obligations.RateChangesOnlyAtASampleOrReset : Prop :=
  ∀ (s t : State) (i : Instr), 1 ≤ s.regs.ovfCnt → s.regs.ovfCnt ≤ s.cfg.nOvf → exec i s = .next t →
    (t.regs.rateQ ≠ s.regs.rateQ ∨ t.rate ≠ s.rate) →
    isRst i = true ∨ (isOverflow i = true ∧ s.regs.ovfCnt = 1)

/-- R127: HRD returns RATE and IND of the present state and writes no register; before the first RST it
is a model fault. What it returns stands in `hostRead`, the model's own field for the host (log 7). -/
def Obligations.HrdReturnsTheOutputs : Prop :=
  (∀ s : State, s.Ready → exec .hrd s = .next { s with hostRead := some {
    rate := encodeRate s.cfg.rateEnc s.regs.rateQ
    ind := if s.regs.dir = .cw then 0b001 else if s.regs.dir = .ccw then 0b010 else 0b100 } }) ∧
  (∀ s : State, s.cfg.Valid → s.rstSeen = false → exec .hrd s = .fault .noValueBeforeReset)

/-- R65: IND is the one-hot pattern of DIR, CW on bit 0, CCW on bit 1, NONE on bit 2. -/
def Obligations.IndicatorIsOneHot : Prop :=
  ∀ s : State, (s.ind[0] = true ↔ s.regs.dir = .cw) ∧ (s.ind[1] = true ↔ s.regs.dir = .ccw) ∧
    (s.ind[2] = true ↔ s.regs.dir = .none) ∧ (s.ind = 0b001 ∨ s.ind = 0b010 ∨ s.ind = 0b100)

/-- R66: under the default encoding the word of a rate below `2^1024 - 2^970` is a finite binary64 word
with sign 0 whose value is nearest to the rate among all finite ones, a tie going to an even fraction;
the rate 0 has the word 0; from `2^1024 - 2^970` on the word is infinity, as IEEE 754 rounding to nearest
has it (R7). What value a word has, and the infinity, are the model's reading of IEEE 754 (log 9). -/
def Obligations.RateWordIsNearestBinary64 : Prop :=
  binary64Word 0 = 0 ∧
  (∀ q : Rat, binary64Limit ≤ q → binary64Word q = 0x7FF0000000000000) ∧
  ∀ q : Rat, 0 ≤ q → q < binary64Limit →
    (binary64Word q)[63] = false ∧ isFiniteBinary64 (binary64Word q) = true ∧
    ∀ v : RateWord, isFiniteBinary64 v = true →
      |binary64Value (binary64Word q) - q| ≤ |binary64Value v - q| ∧
      (|binary64Value (binary64Word q) - q| = |binary64Value v - q| →
        binary64Value v = binary64Value (binary64Word q) ∨ (binary64Word q)[0] = false)

/-- An integrator's byte bus carries the whole RATE word, least significant byte first or last as
RATE_BYTE_ORDER says (R51; the reading of the two names is the model's, log 12). -/
def Obligations.RateBusBytesCarryTheWord : Prop :=
  ∀ (c : Config) (w : RateWord), (rateBusBytes c w).length = 8 ∧
    (c.rateByteOrder = .little → (rateBusBytes c w).foldr (fun b acc => b.toNat + 256 * acc) 0 = w.toNat) ∧
    (c.rateByteOrder = .big → (rateBusBytes c w).foldl (fun acc b => b.toNat + 256 * acc) 0 = w.toNat)

/-- R73: the pseudo-instructions. RST_S and EDGE_S carry the state code; SAMPLE, from a block in use,
ends with exactly one sample boundary; HOLD changes nothing. -/
def Obligations.PseudoInstructionsRun : Prop :=
  (∀ (r : Regs) (p : StateCode), expand r (.rstS p) = [.rst p[1] p[0]] ∧
    expand r (.edgeS p) = [.edge p[1] p[0]] ∧ pairCode p[1] p[0] = p) ∧
  (∀ (s : State) (k : Nat), s.Ready → expand s.regs (.hold k) = List.replicate k .idle ∧
    runAll s (expand s.regs (.hold k)) = .next { s with input := [] }) ∧
  (∀ s : State, s.Ready → 1 ≤ s.regs.ovfCnt → s.regs.ovfCnt ≤ s.cfg.nOvf →
    expand s.regs .sample = List.replicate s.regs.ovfCnt .ovf ∧
    runAll s (expand s.regs .sample) = .next { s with
      input := []
      regs := { s.regs with
        rateQ := (if s.cfg.mode = .pulse then (s.regs.pcnt : Rat) else ((|s.regs.acc| : Int) : Rat)) /
          ((s.cfg.cpr : Rat) * s.cfg.t)
        acc := if s.cfg.mode = .pulse then s.regs.acc else 0
        pcnt := if s.cfg.mode = .pulse then 0 else s.regs.pcnt
        ovfCnt := s.cfg.nOvf } })

/-! ## Whole sample periods: the registers against the spec's own description of a stream -/

/-- Mode VOTE over any stream within a sample period (edges, overflows before the boundary, idle words
and host reads, in any order): ACC has moved by `EP` for every CCW window and back for every CW one,
the tallies are those of the open window, DIR is the verdict of the last full window, and STATE and
OLD_ROT are those of the last transition (R91 to R98). -/
def Obligations.VoteRunIsMajorityOverWindows : Prop :=
  ∀ (s : State) (is : List Instr), s.Inv → s.cfg.mode = .vote → WithinPeriod s.regs is →
    let vs := votesOf s.regs (pairsOf is)
    ∃ t, runAll s is = .next t ∧
      t.regs.acc = wrapS s.cfg.accW (s.regs.acc + windowBalance s.cfg.ep vs * s.cfg.ep) ∧
      t.regs.tcw = (openWindow s.cfg.ep vs).count .cw ∧
      t.regs.tccw = (openWindow s.cfg.ep vs).count .ccw ∧
      t.regs.dir = (if vs.length / s.cfg.ep = 0 then s.regs.dir
        else verdictOf (pollWindow s.cfg.ep (vs.length / s.cfg.ep - 1) vs)) ∧
      t.regs.state = lastAccepted s.regs.state (pairsOf is) ∧
      t.regs.oldRot = (decisions s.regs.state s.regs.oldRot (pairsOf is)).getLastD s.regs.oldRot ∧
      t.regs.rateQ = s.regs.rateQ

/-- R97: however a stream of edges falls, the tallies hold the nonzero decisions since the last full
window, so that a window is exactly `EP` of them and leaves (0, 0) behind. -/
def Obligations.TalliesCountVotesModuloWindow : Prop :=
  ∀ (s : State) (ns : List StateCode), s.Ready → s.cfg.mode = .vote →
    s.regs.tcw + s.regs.tccw < s.cfg.ep →
    ∃ t, runAll s (ns.map edgeTo) = .next t ∧
      t.regs.tcw + t.regs.tccw = (s.regs.tcw + s.regs.tccw +
        (votes (decisions s.regs.state s.regs.oldRot ns)).length) % s.cfg.ep

/-- R125: in mode VOTE the rate of a sample period is `|k| * EP / (CPR * T)`, `k` the CCW windows minus
the CW windows resolved in it, unless ACC wrapped; a partly filled window is carried across the boundary. -/
def Obligations.VoteRateIsWholeWindows : Prop :=
  ∀ (s : State) (is : List Instr) (last : Instr), s.Inv → s.cfg.mode = .vote → s.regs.acc = 0 →
    WithinPeriod s.regs is → is.countP isOverflow + 1 = s.regs.ovfCnt → isOverflow last = true →
    let vs := votesOf s.regs (pairsOf (is ++ [last]))
    let k := windowBalance s.cfg.ep vs
    (-(2 ^ (s.cfg.accW - 1) : Int) ≤ k * s.cfg.ep ∧ k * s.cfg.ep < 2 ^ (s.cfg.accW - 1)) →
    ∃ t, runAll s (is ++ [last]) = .next t ∧
      t.regs.rateQ = ((|k| : Int) : Rat) * s.cfg.ep / (s.cfg.cpr * s.cfg.t) ∧
      t.regs.acc = 0 ∧ t.regs.ovfCnt = s.cfg.nOvf ∧
      t.regs.tcw = (openWindow s.cfg.ep vs).count .cw ∧ t.regs.tccw = (openWindow s.cfg.ep vs).count .ccw

/-- Mode DIRECT over a whole sample period: the rate is the absolute sum of the accepted
classifications over `CPR * T`, unless ACC wrapped (R100, R121). -/
def Obligations.DirectRateIsTheSumOfClassifications : Prop :=
  ∀ (s : State) (is : List Instr) (last : Instr), s.Inv → s.cfg.mode = .direct → s.regs.acc = 0 →
    WithinPeriod s.regs is → is.countP isOverflow + 1 = s.regs.ovfCnt → isOverflow last = true →
    let sum := ((acceptedDecisions s.regs.state (pairsOf (is ++ [last]))).map decisionValue).sum
    (-(2 ^ (s.cfg.accW - 1) : Int) ≤ -sum ∧ -sum < 2 ^ (s.cfg.accW - 1)) →
    ∃ t, runAll s (is ++ [last]) = .next t ∧
      t.regs.rateQ = ((|sum| : Int) : Rat) / (s.cfg.cpr * s.cfg.t) ∧ t.regs.acc = 0 ∧
      t.regs.state = lastAccepted s.regs.state (pairsOf (is ++ [last]))

/-- Mode PULSE over a whole sample period: the rate is the number of counted edges of channel A over
`CPR * T`, unless PCNT wrapped; DIR and the accumulator are never written (R105, R122). -/
def Obligations.PulseRateIsTheNumberOfEdges : Prop :=
  ∀ (s : State) (is : List Instr) (last : Instr), s.Inv → s.cfg.mode = .pulse → s.regs.pcnt = 0 →
    WithinPeriod s.regs is → is.countP isOverflow + 1 = s.regs.ovfCnt → isOverflow last = true →
    let count := pulsesIn s.cfg.pulseEdge
      (s.regs.state[1] :: (pairsOf (is ++ [last])).map (fun n => n[1]))
    count < 2 ^ s.cfg.pcntW →
    ∃ t, runAll s (is ++ [last]) = .next t ∧
      t.regs.rateQ = (count : Rat) / (s.cfg.cpr * s.cfg.t) ∧ t.regs.pcnt = 0 ∧
      t.regs.dir = .none ∧ t.regs.acc = 0

/-- On accepted transitions, DIRECT is VOTE with a window of 1: the two blocks go through the same
STATE, OLD_ROT and ACC, and the same DIR from a nonzero decision on (D18). -/
def Obligations.DirectIsVoteWithAWindowOfOne : Prop :=
  ∀ (s : State) (ns : List StateCode), s.Inv → s.cfg.mode = .vote → s.cfg.ep = 1 →
    (acceptedDecisions s.regs.state ns).length = ns.length →
    ∃ t u, runAll s (ns.map edgeTo) = .next t ∧
      runAll { s with cfg := { s.cfg with mode := .direct } } (ns.map edgeTo) = .next u ∧
      t.regs.state = u.regs.state ∧ t.regs.oldRot = u.regs.oldRot ∧ t.regs.acc = u.regs.acc ∧
      (t.regs.oldRot ≠ .noRot → ns ≠ [] → t.regs.dir = u.regs.dir)

/-! ## Reset, configuration and stops (70_reset_and_hazards.md, 00_scope.md, 60_exceptions.md) -/

/-- R170: before the first RST every event but RST, and every host read, is a model fault; RST is legal
and leaves a block in use. -/
def Obligations.BeforeTheFirstRstOnlyRstRuns : Prop :=
  ∀ (s : State) (i : Instr), s.cfg.Valid → s.rstSeen = false →
    (isRst i = false → exec i s = .fault .noValueBeforeReset) ∧
    (isRst i = true → ∃ t, exec i s = .next t ∧ t.rstSeen = true)

/-- Before the first RST no register holds a value (R39): what the model keeps in their place cannot be
told apart by any step, nor after it. -/
def Obligations.NoRegisterIsReadBeforeTheFirstRst : Prop :=
  ∀ (s : State) (r : Regs) (x : Input) (rest : List Input), s.rstSeen = false → s.input = x :: rest →
    step { s with regs := r } = step s

/-- R9: a configuration that is not valid has no model: every instruction is refused. -/
def Obligations.InvalidConfigurationIsRefused : Prop :=
  ∀ (s : State) (i : Instr),
    ¬ (1 ≤ s.cfg.cpr ∧ 1 ≤ s.cfg.ep ∧ 0 < s.cfg.t ∧ 1 ≤ s.cfg.nOvf ∧ 2 ≤ s.cfg.accW ∧
      s.cfg.ep < 2 ^ (s.cfg.accW - 1) ∧ 1 ≤ s.cfg.pcntW) →
    exec i s = .refused .invalidConfiguration

/-- R6: no event writes a parameter. -/
def Obligations.NoEventWritesAParameter : Prop :=
  ∀ s t : State, step s = .next t → t.cfg = s.cfg

/-- How RATE is encoded and in which order a bus carries it never reaches a register (R51: "No rule of
the block depends on it"; RATE_ENC only forms the output, R123). -/
def Obligations.OutputFormatNeverReachesARegister : Prop :=
  ∀ (s t : State) (i : Instr) (enc : RateEncoding) (order : ByteOrder), exec i s = .next t →
    ∃ u, exec i { s with cfg := { s.cfg with rateEnc := enc, rateByteOrder := order } } = .next u ∧
      u.regs = t.regs ∧ u.ind = t.ind

/-- The invariant of a block in use is kept by every step, from every state that meets it: tallies
short of a window (R25), every register within its width, OVF_CNT in 1 .. N_OVF (R31), a non-negative
rate (R123), the registers a mode never writes at their reset values (R106). -/
def Obligations.EveryStepKeepsTheInvariant : Prop :=
  ∀ s t : State, s.Inv → step s = .next t → t.Inv

/-- The state after reset meets the invariant. -/
def Obligations.ResetMeetsTheInvariant : Prop := State.reset.Inv

/-- RST brings any block with a valid configuration, also one that holds no values yet, into the
invariant. -/
def Obligations.RstEstablishesTheInvariant : Prop :=
  ∀ (s t : State) (a b : Bool), exec (.rst a b) s = .next t → t.Inv

/-- R150, R151: whatever is presented, a block in use never stops, and stays within the invariant. -/
def Obligations.BlockInUseNeverStops : Prop :=
  ∀ (s : State) (k : Nat), s.Inv → ∃ t, Sys2Proof.core.run k s = .next t ∧ t.Inv
end

