-- ==== Sys2Proof/Laws/State.lean ====
section
/-! SUPPORT. What each register write does to each register: one lemma per field per write. -/

namespace Sys2Proof.Machine

variable (c : Config) (r : Regs)

@[simp] theorem Regs.setState_state (v : StateCode) : (r.setState v).state = v := rfl
@[simp] theorem Regs.setState_oldRot (v : StateCode) : (r.setState v).oldRot = r.oldRot := rfl
@[simp] theorem Regs.setState_tcw (v : StateCode) : (r.setState v).tcw = r.tcw := rfl
@[simp] theorem Regs.setState_tccw (v : StateCode) : (r.setState v).tccw = r.tccw := rfl
@[simp] theorem Regs.setState_acc (v : StateCode) : (r.setState v).acc = r.acc := rfl
@[simp] theorem Regs.setState_pcnt (v : StateCode) : (r.setState v).pcnt = r.pcnt := rfl
@[simp] theorem Regs.setState_dir (v : StateCode) : (r.setState v).dir = r.dir := rfl
@[simp] theorem Regs.setState_rateQ (v : StateCode) : (r.setState v).rateQ = r.rateQ := rfl
@[simp] theorem Regs.setState_ovfCnt (v : StateCode) : (r.setState v).ovfCnt = r.ovfCnt := rfl

@[simp] theorem Regs.setOldRot_state (v : Decision) : (r.setOldRot v).state = r.state := rfl
@[simp] theorem Regs.setOldRot_oldRot (v : Decision) : (r.setOldRot v).oldRot = v := rfl
@[simp] theorem Regs.setOldRot_tcw (v : Decision) : (r.setOldRot v).tcw = r.tcw := rfl
@[simp] theorem Regs.setOldRot_tccw (v : Decision) : (r.setOldRot v).tccw = r.tccw := rfl
@[simp] theorem Regs.setOldRot_acc (v : Decision) : (r.setOldRot v).acc = r.acc := rfl
@[simp] theorem Regs.setOldRot_pcnt (v : Decision) : (r.setOldRot v).pcnt = r.pcnt := rfl
@[simp] theorem Regs.setOldRot_dir (v : Decision) : (r.setOldRot v).dir = r.dir := rfl
@[simp] theorem Regs.setOldRot_rateQ (v : Decision) : (r.setOldRot v).rateQ = r.rateQ := rfl
@[simp] theorem Regs.setOldRot_ovfCnt (v : Decision) : (r.setOldRot v).ovfCnt = r.ovfCnt := rfl

@[simp] theorem Regs.setTcw_state (v : Int) : (Regs.setTcw c r v).state = r.state := rfl
@[simp] theorem Regs.setTcw_oldRot (v : Int) : (Regs.setTcw c r v).oldRot = r.oldRot := rfl
@[simp] theorem Regs.setTcw_tcw (v : Int) : (Regs.setTcw c r v).tcw = wrapU (tallyW c) v := rfl
@[simp] theorem Regs.setTcw_tccw (v : Int) : (Regs.setTcw c r v).tccw = r.tccw := rfl
@[simp] theorem Regs.setTcw_acc (v : Int) : (Regs.setTcw c r v).acc = r.acc := rfl
@[simp] theorem Regs.setTcw_pcnt (v : Int) : (Regs.setTcw c r v).pcnt = r.pcnt := rfl
@[simp] theorem Regs.setTcw_dir (v : Int) : (Regs.setTcw c r v).dir = r.dir := rfl
@[simp] theorem Regs.setTcw_rateQ (v : Int) : (Regs.setTcw c r v).rateQ = r.rateQ := rfl
@[simp] theorem Regs.setTcw_ovfCnt (v : Int) : (Regs.setTcw c r v).ovfCnt = r.ovfCnt := rfl

@[simp] theorem Regs.setTccw_state (v : Int) : (Regs.setTccw c r v).state = r.state := rfl
@[simp] theorem Regs.setTccw_oldRot (v : Int) : (Regs.setTccw c r v).oldRot = r.oldRot := rfl
@[simp] theorem Regs.setTccw_tcw (v : Int) : (Regs.setTccw c r v).tcw = r.tcw := rfl
@[simp] theorem Regs.setTccw_tccw (v : Int) : (Regs.setTccw c r v).tccw = wrapU (tallyW c) v := rfl
@[simp] theorem Regs.setTccw_acc (v : Int) : (Regs.setTccw c r v).acc = r.acc := rfl
@[simp] theorem Regs.setTccw_pcnt (v : Int) : (Regs.setTccw c r v).pcnt = r.pcnt := rfl
@[simp] theorem Regs.setTccw_dir (v : Int) : (Regs.setTccw c r v).dir = r.dir := rfl
@[simp] theorem Regs.setTccw_rateQ (v : Int) : (Regs.setTccw c r v).rateQ = r.rateQ := rfl
@[simp] theorem Regs.setTccw_ovfCnt (v : Int) : (Regs.setTccw c r v).ovfCnt = r.ovfCnt := rfl

@[simp] theorem Regs.setAcc_state (v : Int) : (Regs.setAcc c r v).state = r.state := rfl
@[simp] theorem Regs.setAcc_oldRot (v : Int) : (Regs.setAcc c r v).oldRot = r.oldRot := rfl
@[simp] theorem Regs.setAcc_tcw (v : Int) : (Regs.setAcc c r v).tcw = r.tcw := rfl
@[simp] theorem Regs.setAcc_tccw (v : Int) : (Regs.setAcc c r v).tccw = r.tccw := rfl
@[simp] theorem Regs.setAcc_acc (v : Int) : (Regs.setAcc c r v).acc = wrapS c.accW v := rfl
@[simp] theorem Regs.setAcc_pcnt (v : Int) : (Regs.setAcc c r v).pcnt = r.pcnt := rfl
@[simp] theorem Regs.setAcc_dir (v : Int) : (Regs.setAcc c r v).dir = r.dir := rfl
@[simp] theorem Regs.setAcc_rateQ (v : Int) : (Regs.setAcc c r v).rateQ = r.rateQ := rfl
@[simp] theorem Regs.setAcc_ovfCnt (v : Int) : (Regs.setAcc c r v).ovfCnt = r.ovfCnt := rfl

@[simp] theorem Regs.setPcnt_state (v : Int) : (Regs.setPcnt c r v).state = r.state := rfl
@[simp] theorem Regs.setPcnt_oldRot (v : Int) : (Regs.setPcnt c r v).oldRot = r.oldRot := rfl
@[simp] theorem Regs.setPcnt_tcw (v : Int) : (Regs.setPcnt c r v).tcw = r.tcw := rfl
@[simp] theorem Regs.setPcnt_tccw (v : Int) : (Regs.setPcnt c r v).tccw = r.tccw := rfl
@[simp] theorem Regs.setPcnt_acc (v : Int) : (Regs.setPcnt c r v).acc = r.acc := rfl
@[simp] theorem Regs.setPcnt_pcnt (v : Int) : (Regs.setPcnt c r v).pcnt = wrapU c.pcntW v := rfl
@[simp] theorem Regs.setPcnt_dir (v : Int) : (Regs.setPcnt c r v).dir = r.dir := rfl
@[simp] theorem Regs.setPcnt_rateQ (v : Int) : (Regs.setPcnt c r v).rateQ = r.rateQ := rfl
@[simp] theorem Regs.setPcnt_ovfCnt (v : Int) : (Regs.setPcnt c r v).ovfCnt = r.ovfCnt := rfl

@[simp] theorem Regs.setDir_state (v : Direction) : (r.setDir v).state = r.state := rfl
@[simp] theorem Regs.setDir_oldRot (v : Direction) : (r.setDir v).oldRot = r.oldRot := rfl
@[simp] theorem Regs.setDir_tcw (v : Direction) : (r.setDir v).tcw = r.tcw := rfl
@[simp] theorem Regs.setDir_tccw (v : Direction) : (r.setDir v).tccw = r.tccw := rfl
@[simp] theorem Regs.setDir_acc (v : Direction) : (r.setDir v).acc = r.acc := rfl
@[simp] theorem Regs.setDir_pcnt (v : Direction) : (r.setDir v).pcnt = r.pcnt := rfl
@[simp] theorem Regs.setDir_dir (v : Direction) : (r.setDir v).dir = v := rfl
@[simp] theorem Regs.setDir_rateQ (v : Direction) : (r.setDir v).rateQ = r.rateQ := rfl
@[simp] theorem Regs.setDir_ovfCnt (v : Direction) : (r.setDir v).ovfCnt = r.ovfCnt := rfl

@[simp] theorem Regs.setRateQ_state (v : Rat) : (r.setRateQ v).state = r.state := rfl
@[simp] theorem Regs.setRateQ_oldRot (v : Rat) : (r.setRateQ v).oldRot = r.oldRot := rfl
@[simp] theorem Regs.setRateQ_tcw (v : Rat) : (r.setRateQ v).tcw = r.tcw := rfl
@[simp] theorem Regs.setRateQ_tccw (v : Rat) : (r.setRateQ v).tccw = r.tccw := rfl
@[simp] theorem Regs.setRateQ_acc (v : Rat) : (r.setRateQ v).acc = r.acc := rfl
@[simp] theorem Regs.setRateQ_pcnt (v : Rat) : (r.setRateQ v).pcnt = r.pcnt := rfl
@[simp] theorem Regs.setRateQ_dir (v : Rat) : (r.setRateQ v).dir = r.dir := rfl
@[simp] theorem Regs.setRateQ_rateQ (v : Rat) : (r.setRateQ v).rateQ = v := rfl
@[simp] theorem Regs.setRateQ_ovfCnt (v : Rat) : (r.setRateQ v).ovfCnt = r.ovfCnt := rfl

@[simp] theorem Regs.setOvfCnt_state (v : Int) : (Regs.setOvfCnt c r v).state = r.state := rfl
@[simp] theorem Regs.setOvfCnt_oldRot (v : Int) : (Regs.setOvfCnt c r v).oldRot = r.oldRot := rfl
@[simp] theorem Regs.setOvfCnt_tcw (v : Int) : (Regs.setOvfCnt c r v).tcw = r.tcw := rfl
@[simp] theorem Regs.setOvfCnt_tccw (v : Int) : (Regs.setOvfCnt c r v).tccw = r.tccw := rfl
@[simp] theorem Regs.setOvfCnt_acc (v : Int) : (Regs.setOvfCnt c r v).acc = r.acc := rfl
@[simp] theorem Regs.setOvfCnt_pcnt (v : Int) : (Regs.setOvfCnt c r v).pcnt = r.pcnt := rfl
@[simp] theorem Regs.setOvfCnt_dir (v : Int) : (Regs.setOvfCnt c r v).dir = r.dir := rfl
@[simp] theorem Regs.setOvfCnt_rateQ (v : Int) : (Regs.setOvfCnt c r v).rateQ = r.rateQ := rfl
@[simp] theorem Regs.setOvfCnt_ovfCnt (v : Int) : (Regs.setOvfCnt c r v).ovfCnt = wrapU (ovfW c) v := rfl

/-- The registers a RST leaves are those the reset state is built from. -/
@[simp] theorem rstRegs_eq_afterRst (p : StateCode) : rstRegs c p = Regs.afterRst c p := rfl

@[simp] theorem State.presenting_cfg (s : State) (is : List Instr) : (s.presenting is).cfg = s.cfg := rfl
@[simp] theorem State.presenting_rstSeen (s : State) (is : List Instr) : (s.presenting is).rstSeen = s.rstSeen := rfl
@[simp] theorem State.presenting_regs (s : State) (is : List Instr) : (s.presenting is).regs = s.regs := rfl
@[simp] theorem State.presenting_hostRead (s : State) (is : List Instr) : (s.presenting is).hostRead = s.hostRead := rfl
@[simp] theorem State.presenting_input (s : State) (is : List Instr) : (s.presenting is).input = is.map encode := rfl

end Sys2Proof.Machine
end

