-- ==== Sys2Proof/Laws/Ops.lean ====
section
/-! SUPPORT. What each shared operation does, said once: wrap-around and widths, the guards, one event on the registers, one step, one stream. -/

namespace Sys2Proof.Machine

/-! ## Wrap-around (00_scope.md R11) -/

theorem two_pow_pred {w : Nat} (hw : 1 ≤ w) : (2 ^ w : Nat) = 2 * 2 ^ (w - 1) := by
  obtain ⟨k, rfl⟩ : ∃ k, w = k + 1 := ⟨w - 1, by omega⟩
  simp [Nat.pow_succ, Nat.mul_comm]

theorem wrapS_range {w : Nat} (hw : 1 ≤ w) (v : Int) :
    -(2 ^ (w - 1) : Int) ≤ wrapS w v ∧ wrapS w v < 2 ^ (w - 1) := by
  have h2 := two_pow_pred hw
  have hpos : 0 < 2 ^ (w - 1) := by positivity
  have hc : (2 ^ (w - 1) : Int) = ((2 ^ (w - 1) : Nat) : Int) := by push_cast; rfl
  have hlo := Int.le_bmod (x := v) (m := 2 ^ w) (by omega)
  have hhi := Int.bmod_lt (x := v) (m := 2 ^ w) (by omega)
  rw [wrapS, hc]
  omega

theorem wrapS_of_range {w : Nat} (hw : 1 ≤ w) {v : Int}
    (hv : -(2 ^ (w - 1) : Int) ≤ v ∧ v < 2 ^ (w - 1)) : wrapS w v = v := by
  have h2 := two_pow_pred hw
  have hc : (2 ^ (w - 1) : Int) = ((2 ^ (w - 1) : Nat) : Int) := by push_cast; rfl
  rw [hc] at hv
  exact Int.bmod_eq_of_le (by omega) (by omega)

theorem wrapS_zero (w : Nat) : wrapS w 0 = 0 := by simp [wrapS]

/-- Wrapping early does not change a later wrapped sum. -/
theorem wrapS_wrapS_add (w : Nat) (a b : Int) : wrapS w (wrapS w a + b) = wrapS w (a + b) := by
  simp [wrapS]

theorem wrapS_wrapS_sub (w : Nat) (a b : Int) : wrapS w (wrapS w a - b) = wrapS w (a - b) := by
  simp [wrapS]

theorem wrapU_lt (w : Nat) (v : Int) : wrapU w v < 2 ^ w := by
  have hpos : (0 : Int) < 2 ^ w := by positivity
  have h := Int.emod_lt_of_pos v hpos
  have h0 := Int.emod_nonneg v hpos.ne'
  have hc : (2 ^ w : Int) = ((2 ^ w : Nat) : Int) := by push_cast; rfl
  simp only [wrapU]
  omega

theorem wrapU_of_lt {w n : Nat} (h : n < 2 ^ w) : wrapU w n = n := by
  have hc : (2 ^ w : Int) = ((2 ^ w : Nat) : Int) := by push_cast; rfl
  rw [wrapU, hc, Int.emod_eq_of_lt (by omega) (by omega), Int.toNat_natCast]

theorem wrapU_zero (w : Nat) : wrapU w 0 = 0 := by simp [wrapU]

/-! ## Derived widths (00_scope.md R8) -/

theorem lt_two_pow_widthFor (n : Nat) : n < 2 ^ widthFor n := by
  unfold widthFor
  split
  · omega
  · exact Nat.lt_log2_self

theorem widthFor_least {n w : Nat} (h : n < 2 ^ w) : widthFor n ≤ w := by
  unfold widthFor
  split
  · omega
  · next hn => exact (Nat.log2_lt hn).mpr h

/-! ## The guards and one event on the registers -/

theorem whenBuilt_valid {s : State} (h : s.cfg.Valid) (k) : whenBuilt s k = k := if_pos h

theorem whenBuilt_invalid {s : State} (h : ¬ s.cfg.Valid) (k) :
    whenBuilt s k = .refused .invalidConfiguration := if_neg h

theorem whenReset_ready {s : State} (h : s.Ready) (k) : whenReset s k = k := by
  simp [whenReset, whenBuilt_valid h.1, h.2]

theorem whenReset_next {s t : State} {k} (h : whenReset s k = .next t) : s.Ready ∧ k = .next t := by
  unfold whenReset whenBuilt at h
  split at h
  · split at h
    · exact ⟨⟨‹_›, ‹_›⟩, h⟩
    · cases h
  · cases h

theorem onRegs_ready {s : State} (h : s.Ready) (f) :
    onRegs s f = .next { s with regs := f s.regs } := whenReset_ready h _

/-- All one event on the registers can do when it answers a next state. -/
theorem onRegs_next {s t : State} {f} (h : onRegs s f = .next t) :
    s.Ready ∧ t = { s with regs := f s.regs } := by
  obtain ⟨hr, ht⟩ := whenReset_next h
  exact ⟨hr, by cases ht; rfl⟩

/-- All an instruction can do when it answers a next state, one case per instruction. -/
theorem exec_next {i : Instr} {s t : State} (h : exec i s = .next t) :
    (∃ a b, i = .rst a b ∧ s.cfg.Valid ∧
      t = { s with rstSeen := true, regs := Regs.afterRst s.cfg (pairCode a b) }) ∨
    (i = .idle ∧ s.Ready ∧ t = s) ∨
    (∃ a b, i = .edge a b ∧ s.Ready ∧ t = { s with regs := edgeRegs s.cfg (pairCode a b) s.regs }) ∨
    (i = .ovf ∧ s.Ready ∧ t = { s with regs := ovfRegs s.cfg s.regs }) ∨
    (∃ a b, i = .edgeOvf a b ∧ s.Ready ∧
      t = { s with regs := ovfRegs s.cfg (edgeRegs s.cfg (pairCode a b) s.regs) }) ∨
    (i = .hrd ∧ s.Ready ∧ t = { s with hostRead := some s.outputs }) := by
  cases i with
  | rst a b =>
    simp only [exec, execRst, whenBuilt] at h
    split at h
    · cases h; exact .inl ⟨a, b, rfl, ‹_›, rfl⟩
    · cases h
  | idle => obtain ⟨hr, rfl⟩ := onRegs_next h; exact .inr (.inl ⟨rfl, hr, rfl⟩)
  | edge a b => obtain ⟨hr, rfl⟩ := onRegs_next h; exact .inr (.inr (.inl ⟨a, b, rfl, hr, rfl⟩))
  | ovf => obtain ⟨hr, rfl⟩ := onRegs_next h; exact .inr (.inr (.inr (.inl ⟨rfl, hr, rfl⟩)))
  | edgeOvf a b =>
    rw [exec, execEdgeOvf] at h
    obtain ⟨hr, rfl⟩ := onRegs_next h
    exact .inr (.inr (.inr (.inr (.inl ⟨a, b, rfl, hr, rfl⟩))))
  | hrd =>
    obtain ⟨hr, ht⟩ := whenReset_next h
    cases ht
    exact .inr (.inr (.inr (.inr (.inr ⟨rfl, hr, rfl⟩))))

/-! ## One step and one stream -/

theorem step_of_nil {s : State} (h : s.input = []) : step s = betweenEvents s := by
  simp [step, nextInput, h]

theorem step_of_cons {s : State} {x : Input} {rest : List Input} (h : s.input = x :: rest) :
    step s = exec (decode x) { s with input := rest } := by
  simp [step, nextInput, h]

/-- All a step can do when it answers a next state. -/
theorem step_next {s t : State} (h : step s = .next t) :
    (s.input = [] ∧ s.cfg.Valid ∧ t = s) ∨
    ∃ x rest, s.input = x :: rest ∧ exec (decode x) { s with input := rest } = .next t := by
  cases hi : s.input with
  | nil =>
    rw [step_of_nil hi, betweenEvents, whenBuilt] at h
    split at h
    · cases h; exact .inl ⟨rfl, ‹_›, rfl⟩
    · cases h
  | cons x rest => exact .inr ⟨x, rest, rfl, by rw [← h, step_of_cons hi]⟩

theorem core_run_next {s t : State} (h : step s = .next t) (k : Nat) :
    Sys2Proof.core.run (k + 1) s = Sys2Proof.core.run k t := by
  have h' : Sys2Proof.core.step s = .next t := h
  simp only [Host.Core.run, h']

@[simp] theorem runAll_nil (s : State) : runAll s [] = .next { s with input := [] } := rfl

end Sys2Proof.Machine
end

