-- ==== Sys2Proof/Laws/FilterVoter.lean ====
section
/-! SUPPORT. What each part of the EDGE event does, said once, and the three forms of the event assembled from them. -/

namespace Sys2Proof.Machine

variable {c : Config} {n : StateCode} {r : Regs}

/-! ## The parts of mode VOTE -/

theorem takeDecision_of_sentinel (h : classify r.state n = .sentinel) : takeDecision n r = r.oldRot := by
  simp [takeDecision, trusted, h]

theorem takeDecision_of_decided {d : Decision} (h : classify r.state n = .decided d) :
    takeDecision n r = d := by
  simp [takeDecision, trusted, h]

theorem acceptPair_of_sentinel (h : classify r.state n = .sentinel) : acceptPair n r = r := by
  simp [acceptPair, h]

theorem acceptPair_of_decided {d : Decision} (h : classify r.state n = .decided d) :
    acceptPair n r = r.setState n := by
  simp [acceptPair, h]

/-- Accepting a pair writes `STATE` and nothing else. -/
theorem acceptPair_eq : acceptPair n r = r.setState (acceptPair n r).state := by
  unfold acceptPair
  split <;> rfl

theorem acceptPair_state :
    (acceptPair n r).state = if classify r.state n = .sentinel then r.state else n := by
  cases h : classify r.state n with
  | sentinel => simp [acceptPair_of_sentinel h]
  | decided d => simp [acceptPair_of_decided h]

/-- The tally of one decision fits its register while the window is not full. -/
theorem wrapU_tally {k : Nat} (h : k < c.ep) : wrapU (tallyW c) ((k : Int) + 1) = k + 1 := by
  exact_mod_cast wrapU_of_lt (lt_of_le_of_lt (Nat.succ_le_of_lt h) (lt_two_pow_widthFor c.ep))

/-- Tallying, while the window is not full, counts one decision. -/
theorem tally_eq (d : Decision) (h : r.tcw + r.tccw < c.ep) :
    tally c d r = { r with
      tcw := if d = .cw then r.tcw + 1 else r.tcw
      tccw := if d = .ccw then r.tccw + 1 else r.tccw } := by
  have h1 := wrapU_tally (c := c) (k := r.tcw) (by omega)
  have h2 := wrapU_tally (c := c) (k := r.tccw) (by omega)
  cases d <;> simp [tally, Regs.setTcw, Regs.setTccw, h1, h2]

theorem resolveWindow_of_short (h : r.tcw + r.tccw ≠ c.ep) : resolveWindow c r = r := if_neg h

theorem resolveWindow_of_full (h : r.tcw + r.tccw = c.ep) :
    resolveWindow c r = { r with
      tcw := 0
      tccw := 0
      dir := majority r.tcw r.tccw
      acc := (creditWindow c (majority r.tcw r.tccw) r).acc } := by
  rw [resolveWindow, if_pos h]
  cases majority r.tcw r.tccw <;>
    simp [creditWindow, Regs.setTcw, Regs.setTccw, Regs.setDir, Regs.setAcc, wrapU_zero]

/-- What a window's verdict does to the accumulator. -/
theorem creditWindow_acc (verdict : Direction) :
    (creditWindow c verdict r).acc = match verdict with
      | .cw => wrapS c.accW (r.acc - c.ep)
      | .ccw => wrapS c.accW (r.acc + c.ep)
      | .none => r.acc := by
  cases verdict <;> rfl

/-- Tallying leaves all but the tallies, from any state. -/
theorem tally_frame (d : Decision) :
    tally c d r = { r with tcw := (tally c d r).tcw, tccw := (tally c d r).tccw } := by
  cases d <;> rfl

/-- Resolving leaves all but the tallies, the direction and the accumulator, from any state. -/
theorem resolveWindow_frame : resolveWindow c r = { r with
    tcw := (resolveWindow c r).tcw
    tccw := (resolveWindow c r).tccw
    dir := (resolveWindow c r).dir
    acc := (resolveWindow c r).acc } := by
  unfold resolveWindow
  split
  · cases majority r.tcw r.tccw <;> rfl
  · rfl

/-! ## The three forms of the event -/

/-- The CW tally a VOTE edge leaves before the window is looked at. -/
def talliedCw (n : StateCode) (r : Regs) : Nat := if takeDecision n r = .cw then r.tcw + 1 else r.tcw

/-- The CCW tally a VOTE edge leaves before the window is looked at. -/
def talliedCcw (n : StateCode) (r : Regs) : Nat := if takeDecision n r = .ccw then r.tccw + 1 else r.tccw

/-- One decision adds one to the tallies, or nothing where it is 0. -/
theorem tallied_sum : talliedCw n r + talliedCcw n r =
    r.tcw + r.tccw + if takeDecision n r = .noRot then 0 else 1 := by
  unfold talliedCw talliedCcw
  cases takeDecision n r <;> simp <;> omega

theorem tally_accepted (h : r.tcw + r.tccw < c.ep) :
    tally c (takeDecision n r) (acceptPair n r) =
      { r with state := (acceptPair n r).state, tcw := talliedCw n r, tccw := talliedCcw n r } := by
  rw [acceptPair_eq, tally_eq _ (by simpa using h)]
  rfl

/-- A VOTE edge at which the window stays short. -/
theorem edgeVote_of_short (h : r.tcw + r.tccw < c.ep) (hs : talliedCw n r + talliedCcw n r ≠ c.ep) :
    edgeVote c n r = { r with
      state := (acceptPair n r).state
      oldRot := takeDecision n r
      tcw := talliedCw n r
      tccw := talliedCcw n r } := by
  rw [edgeVote, tally_accepted h, resolveWindow_of_short (by exact hs)]
  rfl

/-- A VOTE edge that fills the window. -/
theorem edgeVote_of_full (h : r.tcw + r.tccw < c.ep) (hs : talliedCw n r + talliedCcw n r = c.ep) :
    edgeVote c n r = { r with
      state := (acceptPair n r).state
      oldRot := takeDecision n r
      tcw := 0
      tccw := 0
      dir := majority (talliedCw n r) (talliedCcw n r)
      acc := (creditWindow c (majority (talliedCw n r) (talliedCcw n r)) r).acc } := by
  rw [edgeVote, tally_accepted h, resolveWindow_of_full (by exact hs)]
  simp only [Regs.setOldRot, creditWindow_acc]

theorem edgeDirect_of_sentinel (h : classify r.state n = .sentinel) : edgeDirect c n r = r := by
  simp [edgeDirect, h]

theorem edgeDirect_of_decided {d : Decision} (h : classify r.state n = .decided d) :
    edgeDirect c n r = { r with
      state := n
      oldRot := d
      dir := directionOf d
      acc := wrapS c.accW (r.acc - decisionValue d) } := by
  simp [edgeDirect, h, Regs.setState, Regs.setOldRot, Regs.setDir, Regs.setAcc]

theorem edgePulse_eq : edgePulse c n r = { r with
    state := n
    pcnt := if isPulse c.pulseEdge (channelA r.state) (channelA n) then wrapU c.pcntW (r.pcnt + 1)
      else r.pcnt } := by
  unfold edgePulse
  split <;> rfl

end Sys2Proof.Machine
end

