-- ==== Sys2Proof/Laws/PerInstr.lean ====
section
/-! SUPPORT. Statements made for all instructions, one lemma per constructor. -/

namespace Sys2Proof.Laws.DecodeEncode

/-- What is presented for an instruction decodes to that instruction, with every operand at every
value (30_encoding.md R67, R68, R72). -/
def Statement (i : Instr) : Prop := decode (encode i) = i

theorem rst (a b : Bool) : Statement (.rst a b) := by cases a <;> cases b <;> rfl

theorem idle : Statement .idle := rfl

theorem edge (a b : Bool) : Statement (.edge a b) := by cases a <;> cases b <;> rfl

theorem ovf : Statement .ovf := rfl

theorem edgeOvf (a b : Bool) : Statement (.edgeOvf a b) := by cases a <;> cases b <;> rfl

theorem hrd : Statement .hrd := rfl

end Sys2Proof.Laws.DecodeEncode
end

