-- ==== Sys2Proof/Laws/RateEstimator.lean ====
section
/-! SUPPORT. What the OVF event does, said once: it counts one overflow, and the last one of a sample period takes the sample; and the word of the rate it takes. -/

namespace Sys2Proof.Machine

variable {c : Config} {r : Regs}

/-- Counting one overflow down, while OVF_CNT is within its range. -/
theorem setOvfCnt_pred (h1 : 1 ≤ r.ovfCnt) (h2 : r.ovfCnt ≤ c.nOvf) :
    r.setOvfCnt c (r.ovfCnt - 1) = { r with ovfCnt := r.ovfCnt - 1 } := by
  have h := wrapU_of_lt (w := ovfW c) (n := r.ovfCnt - 1)
    (lt_of_le_of_lt (by omega) (lt_two_pow_widthFor c.nOvf))
  rw [Nat.cast_sub h1] at h
  simpa [Regs.setOvfCnt] using h

theorem wrapU_nOvf : wrapU (ovfW c) c.nOvf = c.nOvf := wrapU_of_lt (lt_two_pow_widthFor c.nOvf)

/-- An OVF before the last of a sample period counts down, and no more. -/
theorem ovfRegs_of_more (h1 : 2 ≤ r.ovfCnt) (h2 : r.ovfCnt ≤ c.nOvf) :
    ovfRegs c r = { r with ovfCnt := r.ovfCnt - 1 } := by
  rw [ovfRegs, setOvfCnt_pred (by omega) h2]
  exact if_neg (by simp; omega)

/-- The last OVF of a sample period takes the sample and reloads the counter. -/
theorem ovfRegs_of_last (h1 : r.ovfCnt = 1) (h2 : r.ovfCnt ≤ c.nOvf) :
    ovfRegs c r = { sampleRegs c r with ovfCnt := c.nOvf } := by
  rw [ovfRegs, setOvfCnt_pred (by omega) h2]
  have hz : r.ovfCnt - 1 = 0 := by omega
  rw [hz]
  simp only [if_true, Regs.setOvfCnt, wrapU_nOvf]
  unfold sampleRegs
  cases c.mode <;> rfl

theorem sampleRegs_acc (h : c.mode ≠ .pulse) :
    sampleRegs c r = { r with rateQ := rateOf c r.acc.natAbs, acc := 0 } := by
  unfold sampleRegs
  cases hm : c.mode <;> simp_all [Regs.setRateQ, Regs.setAcc, wrapS_zero]

theorem sampleRegs_pcnt (h : c.mode = .pulse) :
    sampleRegs c r = { r with rateQ := rateOf c r.pcnt, pcnt := 0 } := by
  simp [sampleRegs, h, Regs.setRateQ, Regs.setPcnt, wrapU_zero]

/-- A rate is non-negative: an unsigned count over a positive number (43_rate_estimator.md R123). -/
theorem rateOf_nonneg (hc : c.Valid) (k : Nat) : 0 ≤ rateOf c k := by
  have ht : (0 : Rat) < c.t := hc.2.2.1
  unfold rateOf
  positivity

/-- The word of a positive rate: its rounded magnitude, or infinity where that is beyond every finite
number. -/
theorem binary64Word_of_pos {q : Rat} (h : 0 < q) :
    binary64Word q = BitVec.ofNat 64 (min (binary64Magnitude q.num.toNat q.den) 0x7FF0000000000000) := by
  rw [binary64Word, if_neg h.le.not_gt, if_neg h.ne']
  rfl

end Sys2Proof.Machine
end

