-- ==== Sys2Proof/Laws/Run.lean ====
section
/-! SUPPORT. A stream of instructions from a block in use, packaged once: the registers it leaves are its effects on the registers, one after the other. -/

namespace Sys2Proof.Machine

/-- What an instruction does to the registers of a block that has been reset. -/
def effect (c : Config) : Instr → Regs → Regs
  | .rst a b, _ => Regs.afterRst c (pairCode a b)
  | .idle, r => r
  | .edge a b, r => edgeRegs c (pairCode a b) r
  | .ovf, r => ovfRegs c r
  | .edgeOvf a b, r => ovfRegs c (edgeRegs c (pairCode a b) r)
  | .hrd, r => r

/-- The effects of a stream, oldest first. -/
def effects (c : Config) (is : List Instr) (r : Regs) : Regs := is.foldl (fun r i => effect c i r) r

@[simp] theorem effects_nil (c : Config) (r : Regs) : effects c [] r = r := rfl

@[simp] theorem effects_cons (c : Config) (i : Instr) (is : List Instr) (r : Regs) :
    effects c (i :: is) r = effects c is (effect c i r) := rfl

theorem effects_append (c : Config) (is js : List Instr) (r : Regs) :
    effects c (is ++ js) r = effects c js (effects c is r) := List.foldl_append

theorem pairCode_bits (n : StateCode) : pairCode n[1] n[0] = n := by revert n; decide

@[simp] theorem effect_edgeTo (c : Config) (n : StateCode) (r : Regs) :
    effect c (edgeTo n) r = edgeRegs c n r := by
  rw [edgeTo, effect, pairCode_bits]

/-- What the host holds after an instruction of a block that has been reset. -/
def readAfter (s : State) : Instr → Option HostRead
  | .hrd => some s.outputs
  | .rst _ _ => s.hostRead
  | .idle => s.hostRead
  | .edge _ _ => s.hostRead
  | .ovf => s.hostRead
  | .edgeOvf _ _ => s.hostRead

theorem readAfter_of_ne {s : State} {i : Instr} (h : i ≠ .hrd) : readAfter s i = s.hostRead := by
  cases i <;> first | rfl | exact absurd rfl h

/-- Every instruction completes from a block in use, and changes nothing but the registers and, for
HRD, what the host has read. -/
theorem exec_ready {s : State} (h : s.Ready) (i : Instr) :
    exec i s = .next { s with regs := effect s.cfg i s.regs, hostRead := readAfter s i } := by
  cases i with
  | rst a b => rw [exec, execRst, whenBuilt_valid h.1, ← h.2]; rfl
  | idle => rw [exec, execIdle, onRegs_ready h]; rfl
  | edge a b => rw [exec, execEdge, onRegs_ready h]; rfl
  | ovf => rw [exec, execOvf, onRegs_ready h]; rfl
  | edgeOvf a b => rw [exec, execEdgeOvf, onRegs_ready h]; rfl
  | hrd => rw [exec, execHrd, whenReset_ready h]; rfl

theorem decode_encode (i : Instr) : decode (encode i) = i := by
  cases i with
  | rst a b => exact Sys2Proof.Laws.DecodeEncode.rst a b
  | idle => rfl
  | edge a b => exact Sys2Proof.Laws.DecodeEncode.edge a b
  | ovf => rfl
  | edgeOvf a b => exact Sys2Proof.Laws.DecodeEncode.edgeOvf a b
  | hrd => rfl

/-- A stream presented to a block in use runs to its end, and leaves its effects on the registers; what
the host holds changes only if the stream has a host read. -/
theorem runAll_ready (is : List Instr) {s : State} (h : s.Ready) :
    ∃ hr, runAll s is = .next { s with input := [], regs := effects s.cfg is s.regs, hostRead := hr } ∧
      (.hrd ∉ is → hr = s.hostRead) := by
  induction is generalizing s with
  | nil => exact ⟨s.hostRead, rfl, fun _ => rfl⟩
  | cons i is ih =>
    have hstep := step_of_cons (s := s.presenting (i :: is)) (x := encode i) (rest := is.map encode) rfl
    have he := exec_ready (s := { s with input := is.map encode }) h i
    rw [decode_encode] at hstep
    obtain ⟨hr, hrun, hread⟩ := ih (s := { s with
      input := is.map encode
      regs := effect s.cfg i s.regs
      hostRead := readAfter { s with input := is.map encode } i }) h
    refine ⟨hr, (core_run_next (hstep.trans he) is.length).trans hrun, fun hn => ?_⟩
    rw [List.mem_cons, not_or] at hn
    rw [hread hn.2]
    exact readAfter_of_ne (Ne.symm hn.1)

end Sys2Proof.Machine
end

