-- ==== Sys2Proof/Tests/Slice0.lean ====
section
/-! SUPPORT. Tests against the spec's own vectors (95_test_vectors.md), the smoke test of WellFormed, and for each statement with hypotheses a state and operands that meet them. -/

set_option Elab.async false
namespace Sys2Proof.Tests

open Sys2Proof Sys2Proof.Machine

/-- The state an outcome goes on from. -/
def nextOf : Host.Outcome State Fault Refusal → Option State
  | .next t => some t
  | .fault _ => none
  | .refused _ => none

theorem next_of_nextOf {o : Host.Outcome State Fault Refusal} {t : State} (h : nextOf o = some t) : o = .next t := by
  cases o with
  | next u => exact congrArg Host.Outcome.next (Option.some.inj h)
  | fault f => simp [nextOf] at h
  | refused r => simp [nextOf] at h

/-- The fault an outcome is. -/
def faultOf : Host.Outcome State Fault Refusal → Option Fault
  | .next _ => none
  | .fault f => some f
  | .refused _ => none

/-- The refusal an outcome is. -/
def refusalOf : Host.Outcome State Fault Refusal → Option Refusal
  | .next _ => none
  | .fault _ => none
  | .refused r => some r

/-- The configuration of the vectors of section 2.2: mode VOTE, `EP = 50`. -/
def vote : Config := Config.atReset

/-- The same in mode DIRECT. -/
def direct : Config := { Config.atReset with mode := .direct }

/-- The same in mode PULSE, counting rising edges. -/
def pulse : Config := { Config.atReset with mode := .pulse }

/-- The configuration of program P1. -/
def small : Config := { Config.atReset with cpr := 4, ep := 2, t := 1/2 }

/-- A block that has been reset, nothing presented, in the columns of section 2.2:
`STATE / OLD_ROT / TCW,TCCW / ACC / DIR`, the other registers as RST leaves them. -/
def block (c : Config) (state : StateCode) (oldRot : Decision) (tcw tccw : Nat) (acc : Int) (dir : Direction) : State :=
  { State.afterRst c state with
    regs := { Regs.afterRst c state with oldRot := oldRot, tcw := tcw, tccw := tccw, acc := acc, dir := dir } }

/-- The same block with other values in PCNT, RATE_Q and OVF_CNT. -/
def rated (s : State) (pcnt : Nat) (rateQ : Rat) (ovfCnt : Nat) : State :=
  { s with regs := { s.regs with pcnt := pcnt, rateQ := rateQ, ovfCnt := ovfCnt } }

/-- One step on an event word. -/
def onWord (s : State) (w : Nat) : Option State := nextOf (step (s.withFetchWord 5 w))

/-! ## WellFormed: each clause of a valid configuration refuses -/

theorem test_valid_defaults : vote.Valid ∧ direct.Valid ∧ pulse.Valid ∧ small.Valid := by decide +kernel
theorem test_invalid_cpr : ¬ { vote with cpr := 0 }.Valid := by decide
theorem test_invalid_ep : ¬ { vote with ep := 0 }.Valid := by decide
theorem test_invalid_t : ¬ { vote with t := 0 }.Valid := by decide
theorem test_invalid_nOvf : ¬ { vote with nOvf := 0 }.Valid := by decide
theorem test_invalid_accW : ¬ { vote with accW := 1, ep := 0 }.Valid ∧ ¬ { vote with accW := 1, ep := 1 }.Valid := by
  decide
theorem test_invalid_ep_too_large : ¬ { vote with accW := 6, ep := 32 }.Valid ∧ { vote with accW := 6, ep := 31 }.Valid := by
  decide
theorem test_invalid_pcntW : ¬ { vote with pcntW := 0 }.Valid := by decide
theorem test_mode_code_3_is_not_legal : Mode.ofCode 3 = none ∧ Mode.ofCode 2 = some .pulse := by decide
theorem test_pulseEdge_code_3_is_not_legal : PulseEdge.ofCode 3 = none ∧ PulseEdge.ofCode 1 = some .falling := by decide
theorem test_refused_when_invalid :
    refusalOf (exec .idle (block { vote with cpr := 0 } 0 .noRot 0 0 0 .none)) = some .invalidConfiguration := by
  decide

/-! ## Decoding: words written bit by bit, `EVT = RST OVF EDGE A B` -/

theorem test_decode_rst : decode (.event 0b10010) = .rst true false ∧ decode (.event 0b11101) = .rst false true := by decide
theorem test_decode_idle : decode (.event 0b00000) = .idle ∧ decode (.event 0b00011) = .idle := by decide
theorem test_decode_edge : decode (.event 0b00101) = .edge false true ∧ decode (.event 0b00110) = .edge true false := by decide
theorem test_decode_ovf : decode (.event 0b01000) = .ovf ∧ decode (.event 0b01011) = .ovf := by decide
theorem test_decode_edgeOvf : decode (.event 0b01101) = .edgeOvf false true ∧ decode (.event 0b01110) = .edgeOvf true false := by
  decide
theorem test_decode_hrd : decode .hostRead = .hrd ∧ decodeTableWord 0 0 = some .hrd := by decide
theorem test_decode_number_wider_than_a_word :
    decodeTableWord 5 32 = none ∧ (decodeNumber 32).toOption = none := by
  decide
theorem test_encode : encode (.edge true false) = .event 0x06 ∧ encode (.edgeOvf false true) = .event 0x0D ∧
    encode (.rst true true) = .event 0x13 := by decide

/-! ## One step of each event -/

/-- XV-1. -/
theorem test_rst : onWord (rated (block { vote with nOvf := 3 } 1 .ccw 4 5 77 .ccw) 0 (1/3) 2) 0x12 =
    some (block { vote with nOvf := 3 } 2 .noRot 0 0 0 .none) := by decide
/-- XV-2. -/
theorem test_rst_ignores_ovf_and_edge : onWord (rated (block vote 2 .cw 1 2 3 .cw) 0 1 1) 0x1D =
    some (block vote 1 .noRot 0 0 0 .none) := by decide
/-- XV-3. -/
theorem test_idle : onWord (block vote 2 .cw 1 2 3 .cw) 0x03 = some (block vote 2 .cw 1 2 3 .cw) := by decide
/-- FV-2: a sentinel is tallied as the last trusted decision. -/
theorem test_edge_vote_sentinel : onWord (block vote 2 .cw 1 0 0 .none) 0x05 = some (block vote 2 .cw 2 0 0 .none) := by
  decide
/-- FV-10: a CW window lowers ACC, which wraps. -/
theorem test_edge_vote_wraps : onWord (block { vote with accW := 8 } 1 .cw 49 0 (-100) .cw) 0x04 =
    some (block { vote with accW := 8 } 0 .cw 0 0 106 .cw) := by decide
/-- DV-2. -/
theorem test_edge_direct : onWord (block direct 2 .cw 0 0 (-1) .cw) 0x04 = some (block direct 0 .ccw 0 0 0 .ccw) := by
  decide
/-- DV-4. -/
theorem test_edge_direct_no_change : onWord (block direct 3 .cw 0 0 (-2) .cw) 0x07 =
    some (block direct 3 .noRot 0 0 (-2) .none) := by decide
/-- PV-4. -/
theorem test_edge_pulse_diagonal : onWord (rated (block pulse 1 .noRot 0 0 0 .none) 1 0 1) 0x06 =
    some (rated (block pulse 2 .noRot 0 0 0 .none) 2 0 1) := by decide
/-- PV-7. -/
theorem test_edge_pulse_wraps : onWord (rated (block { pulse with pcntW := 2 } 0 .noRot 0 0 0 .none) 3 0 1) 0x07 =
    some (block { pulse with pcntW := 2 } 3 .noRot 0 0 0 .none) := by decide
/-- RV-1. -/
theorem test_ovf_counts_down : onWord (block { vote with nOvf := 2 } 0 .noRot 0 0 50 .none) 0x08 =
    some (rated (block { vote with nOvf := 2 } 0 .noRot 0 0 50 .none) 0 0 1) := by decide
/-- RV-6, with the word bits `A = B = 1` of XV-7. -/
theorem test_ovf_samples : onWord (block { vote with cpr := 1024, t := 26/1000 } 0 .noRot 0 0 (-128) .none) 0x0B =
    some (rated (block { vote with cpr := 1024, t := 26/1000 } 0 .noRot 0 0 0 .none) 0 (125/26) 1) := by decide +kernel
/-- XV-4: the edge's window is in this sample. -/
theorem test_edgeOvf : onWord (block { vote with ep := 1, cpr := 4 } 0 .noRot 0 0 0 .none) 0x0D =
    some (rated (block { vote with ep := 1, cpr := 4 } 1 .ccw 0 0 0 .ccw) 0 (1/4) 1) := by decide +kernel
/-- P3, step 6: in mode PULSE the edge's pulse is in this sample. -/
theorem test_edgeOvf_pulse : onWord (rated (block { pulse with cpr := 2, nOvf := 2 } 1 .noRot 0 0 0 .none) 1 0 1) 0x0E =
    some (rated (block { pulse with cpr := 2, nOvf := 2 } 2 .noRot 0 0 0 .none) 0 1 2) := by decide +kernel
/-- XV-6, with P1's direction. -/
theorem test_hrd : (nextOf (step ((rated (block vote 0 .ccw 0 0 0 .ccw) 0 (1/10) 1).withFetchWord 0 0))).map State.hostRead =
    some (some ⟨0x3FB999999999999A, 0b010⟩) := by decide +kernel
/-- XV-5. -/
theorem test_fault_before_rst : faultOf (exec (.edge false true) (State.powerOn vote)) = some .noValueBeforeReset ∧
    faultOf (exec .hrd (State.powerOn vote)) = some .noValueBeforeReset := by decide
/-- The words of RV-4 and RV-7. -/
theorem test_rate_words : binary64Word (50/13) = 0x400EC4EC4EC4EC4F ∧ binary64Word 128 = 0x4060000000000000 := by
  decide +kernel
/-- A tiny sample time: the rate `2^1030` is beyond every finite number, and RATE is infinity (R7, IEEE 754). -/
theorem test_rate_infinite :
    (onWord (block { vote with cpr := 1, t := 1 / 2 ^ 1024 } 0 .noRot 0 0 64 .none) 0x08).map State.rate =
      some 0x7FF0000000000000 := by decide +kernel

/-! ## Witnesses: a state and operands that meet a statement's hypotheses -/

theorem witness_DontCareBitsDoNotMatter :
    (0x10 : EventWord) &&& (decode (.event 0x10)).careBits = 0x1C &&& (decode (.event 0x10)).careBits ∧
    (0x00 : EventWord) &&& (decode (.event 0x00)).careBits = 0x03 &&& (decode (.event 0x00)).careBits ∧
    (0x08 : EventWord) &&& (decode (.event 0x08)).careBits = 0x0B &&& (decode (.event 0x08)).careBits ∧
    decode (.event 0x1D) = .rst false true ∧ decode (.event 0x06) = .edge true false ∧
    decode (.event 0x0E) = .edgeOvf true false := by decide

theorem witness_ClassifierTableProperties :
    ((0 : StateCode) ^^^ 1 = 1) ∧ ((3 : StateCode) ^^^ 1 = 2) ∧ ((0 : StateCode) = 3 ^^^ 3) ∧ (2 : Int) ∈ [0, 1, -1, (2 : Int)] := by
  decide

/-- The least width, and both ends of the range at one of 8. -/
theorem witness_WrapAroundStaysInRangeAndCongruent :
    (1 ≤ 1 ∧ 1 ≤ 8) ∧ wrapS 8 (-150) = 106 ∧ wrapS 8 128 = -128 ∧ wrapS 8 (-128) = -128 ∧ wrapS 8 127 = 127 := by decide

/-- The fullest window short of resolving, and the prescaler at its top. -/
theorem witness_WidthsAreLeastAndSuffice : (block vote 0 .cw 49 0 0 .cw).Inv ∧ (block vote 0 .ccw 0 49 0 .cw).Inv := by
  decide

theorem witness_StepRunsTheDecodedInput :
    (State.reset.withFetchWord 5 0x05).input = .event 0x05 :: [] ∧
    (State.reset.withFetchWord 0 0).input = .hostRead :: [] := by decide

theorem witness_StepWithNothingPresentedKeepsTheState : State.reset.input = [] ∧ State.reset.cfg.Valid := by decide

theorem witness_HostReadSeesTheLastEvent : ∃ u, exec (.edge false true) { State.reset with input := [] } = .next u :=
  ⟨block vote 1 .ccw 0 1 0 .none, next_of_nextOf (by decide)⟩

theorem witness_RstSetsEveryRegister :
    (0x1D : EventWord)[4] = true ∧ (State.powerOn vote).cfg.Valid ∧ (block vote 1 .ccw 4 5 77 .ccw).cfg.Valid := by
  decide

theorem witness_IdleChangesNothing : (0x03 : EventWord).extractLsb' 2 3 = 0b000 ∧ (block vote 2 .cw 1 2 3 .cw).Ready := by
  decide

theorem witness_EdgeOvfIsEdgeThenOvf : (0x0E : EventWord).extractLsb' 2 3 = 0b011 ∧ State.reset.Ready := by decide

/-- A full window won by CW, by CCW, and a tie; a window of one; a sentinel with and without a last
trusted decision; a decision of no rotation. -/
theorem witness_EdgeInVoteMode :
    (∀ s ∈ [block vote 1 .ccw 30 19 0 .none, block vote 0 .cw 10 39 100 .cw, block vote 0 .ccw 24 25 7 .ccw,
        block { vote with ep := 1 } 0 .noRot 0 0 0 .none, block vote 2 .cw 1 0 0 .none, block vote 0 .noRot 3 3 0 .none,
        block vote 3 .ccw 5 7 0 .ccw],
      s.Ready ∧ s.cfg.mode = .vote ∧ s.regs.tcw + s.regs.tccw < s.cfg.ep) ∧
    classify 1 3 = .decided .ccw ∧ classify 0 2 = .decided .cw ∧ classify 2 1 = .sentinel ∧ classify 3 3 = .decided .noRot := by
  decide

theorem witness_EdgeInDirectMode :
    (block direct 2 .cw 0 0 (-1) .cw).Ready ∧ (block direct 2 .cw 0 0 (-1) .cw).cfg.mode = .direct ∧
    classify 2 0 = .decided .ccw ∧ classify 2 1 = .sentinel ∧ classify 2 2 = .decided .noRot ∧ classify 2 3 = .decided .cw := by
  decide

theorem witness_EdgeInPulseMode :
    ∀ e ∈ [PulseEdge.rising, .falling, .both], (block { pulse with pulseEdge := e } 2 .noRot 0 0 0 .none).Ready ∧
      (block { pulse with pulseEdge := e } 2 .noRot 0 0 0 .none).cfg.mode = .pulse := by decide

/-- The window's last vote but one is the largest tally for which DIR and ACC stay (`48 + 1 < 50`). -/
theorem witness_EdgeFrameByMode :
    (∃ t, exec (.edge true false) (block vote 1 .cw 48 0 5 .cw) = .next t) ∧ classify 1 2 = .sentinel ∧
    48 + 0 + 1 < vote.ep ∧ (∃ t, exec (.edge false false) (block direct 3 .cw 0 0 (-2) .cw) = .next t) ∧
    classify 3 0 = .sentinel ∧ (∃ t, exec (.edge true false) (block pulse 1 .noRot 0 0 0 .none) = .next t) :=
  ⟨⟨block vote 1 .cw 49 0 5 .cw, next_of_nextOf (by decide)⟩, by decide, by decide,
    ⟨block direct 3 .cw 0 0 (-2) .cw, next_of_nextOf (by decide)⟩, by decide,
    ⟨rated (block pulse 2 .noRot 0 0 0 .none) 1 0 1, next_of_nextOf (by decide)⟩⟩

/-- Each value of OLD_ROT; two sentinels that stop short of the window, and three that fill it. -/
theorem witness_SentinelRunFeedsOneBucket :
    ∀ s ∈ [block { vote with ep := 4 } 0 .noRot 0 1 0 .none, block { vote with ep := 4 } 0 .cw 0 1 0 .none,
        block { vote with ep := 4 } 0 .ccw 0 1 0 .none],
      s.Ready ∧ s.cfg.mode = .vote ∧ s.regs.tcw + s.regs.tccw < s.cfg.ep ∧
      (∀ n ∈ [(3 : StateCode), 3, 3], classify s.regs.state n = .sentinel) ∧
      s.regs.tcw + s.regs.tccw + 2 < s.cfg.ep ∧ ¬ s.regs.tcw + s.regs.tccw + 3 < s.cfg.ep := by decide

theorem witness_MissedChangesShowModuloFour :
    ∀ k ∈ [0, 1, 2, 3], (block vote 0 .ccw 0 0 0 .none).Ready ∧ (block vote 0 .ccw 0 0 0 .none).cfg.mode = .vote ∧
      Decision.ccw ≠ .noRot ∧ Decision.cw ≠ .noRot ∧ 0 + 0 < vote.ep ∧ k % 4 = k := by decide

/-- The count above one, at one in VOTE and DIRECT, and at one in PULSE. -/
theorem witness_OvfCountsAndSamples :
    (0x0B : EventWord).extractLsb' 2 3 = 0b010 ∧
    (∀ s ∈ [block { vote with nOvf := 2 } 0 .noRot 0 0 50 .none, block vote 0 .noRot 0 0 (-50) .none,
        block direct 0 .noRot 0 0 3 .none, rated (block pulse 0 .noRot 0 0 0 .none) 5 0 1],
      s.Ready ∧ 1 ≤ s.regs.ovfCnt ∧ s.regs.ovfCnt ≤ s.cfg.nOvf) ∧
    { vote with nOvf := 2 }.nOvf ≠ 1 ∧ vote.mode ≠ .pulse ∧ direct.mode ≠ .pulse ∧ pulse.mode = .pulse := by decide

theorem witness_OvfFrame : (∃ t, exec .ovf (block vote 3 .cw 7 8 50 .cw) = .next t) ∧
    (∃ t, exec .ovf (rated (block pulse 0 .noRot 0 0 0 .none) 5 0 1) = .next t) :=
  ⟨⟨rated (block vote 3 .cw 7 8 0 .cw) 0 (1/10) 1, next_of_nextOf (by decide +kernel)⟩,
    ⟨rated (block pulse 0 .noRot 0 0 0 .none) 0 (1/100) 1, next_of_nextOf (by decide +kernel)⟩⟩

theorem witness_RateChangesOnlyAtASampleOrReset :
    ∃ t, exec .ovf (block vote 3 .cw 7 8 50 .cw) = .next t ∧ t.regs.rateQ ≠ (block vote 3 .cw 7 8 50 .cw).regs.rateQ ∧
      1 ≤ (block vote 3 .cw 7 8 50 .cw).regs.ovfCnt ∧ (block vote 3 .cw 7 8 50 .cw).regs.ovfCnt ≤ vote.nOvf :=
  ⟨rated (block vote 3 .cw 7 8 0 .cw) 0 (1/10) 1, next_of_nextOf (by decide +kernel), by decide +kernel⟩

theorem witness_HrdReturnsTheOutputs : State.reset.Ready ∧
    (State.powerOn vote).cfg.Valid ∧ (State.powerOn vote).rstSeen = false := by decide

/-- The rate 0, one just short of the limit, the limit itself, and a tie between two words, which goes
to the even one. -/
theorem witness_RateWordIsNearestBinary64 :
    ((0 : Rat) ≤ 0 ∧ (0 : Rat) < binary64Limit) ∧ (0 : Rat) ≤ binary64Limit - 1 ∧ binary64Limit - 1 < binary64Limit ∧
    binary64Word (binary64Limit - 1) = 0x7FEFFFFFFFFFFFFF ∧ binary64Limit ≤ binary64Limit ∧
    binary64Word binary64Limit = 0x7FF0000000000000 ∧
    (isFiniteBinary64 0x4340000000000001 = true ∧ binary64Word 9007199254740993 = 0x4340000000000000 ∧
      |binary64Value 0x4340000000000000 - 9007199254740993| = |binary64Value 0x4340000000000001 - 9007199254740993|) := by
  decide +kernel

theorem witness_RateBusBytesCarryTheWord : vote.rateByteOrder = .little ∧ { vote with rateByteOrder := .big }.rateByteOrder = .big := by
  decide

theorem witness_PseudoInstructionsRun :
    ∀ s ∈ [block { vote with nOvf := 2 } 0 .noRot 0 0 50 .none, rated (block pulse 0 .noRot 0 0 0 .none) 5 0 1],
      s.Ready ∧ 1 ≤ s.regs.ovfCnt ∧ s.regs.ovfCnt ≤ s.cfg.nOvf := by decide

/-- A stream of every kind within a period of two overflows, with windows of two that fill. -/
theorem witness_VoteRunIsMajorityOverWindows :
    let s := block { small with nOvf := 2 } 0 .cw 1 0 5 .cw
    let is := [Instr.edge true false, .ovf, .edge false true, .idle, .hrd, .edge true true]
    s.Inv ∧ s.cfg.mode = .vote ∧ WithinPeriod s.regs is ∧ 0 < (votesOf s.regs (pairsOf is)).length / s.cfg.ep := by
  decide +kernel

theorem witness_TalliesCountVotesModuloWindow :
    (block small 0 .cw 1 0 5 .cw).Ready ∧ (block small 0 .cw 1 0 5 .cw).cfg.mode = .vote ∧ 1 + 0 < small.ep := by
  decide +kernel

theorem witness_VoteRateIsWholeWindows :
    let s := block { small with nOvf := 2 } 0 .cw 1 0 0 .cw
    let is := [Instr.edge true false, .ovf, .edge false true]
    let vs := votesOf s.regs (pairsOf (is ++ [.edgeOvf true true]))
    let k := windowBalance s.cfg.ep vs
    s.Inv ∧ s.cfg.mode = .vote ∧ s.regs.acc = 0 ∧ WithinPeriod s.regs is ∧ is.countP isOverflow + 1 = s.regs.ovfCnt ∧
      isOverflow (.edgeOvf true true) = true ∧ k ≠ 0 ∧
      (-(2 ^ (s.cfg.accW - 1) : Int) ≤ k * s.cfg.ep ∧ k * s.cfg.ep < 2 ^ (s.cfg.accW - 1)) := by decide +kernel

theorem witness_DirectRateIsTheSumOfClassifications :
    let s := block { direct with nOvf := 2 } 0 .cw 0 0 0 .cw
    let is := [Instr.edge true false, .ovf, .edge false true]
    let sum := ((acceptedDecisions s.regs.state (pairsOf (is ++ [.edgeOvf true true]))).map decisionValue).sum
    s.Inv ∧ s.cfg.mode = .direct ∧ s.regs.acc = 0 ∧ WithinPeriod s.regs is ∧ is.countP isOverflow + 1 = s.regs.ovfCnt ∧
      isOverflow (.edgeOvf true true) = true ∧ sum = 2 ∧
      (-(2 ^ (s.cfg.accW - 1) : Int) ≤ -sum ∧ -sum < 2 ^ (s.cfg.accW - 1)) := by decide

theorem witness_PulseRateIsTheNumberOfEdges :
    let s := block { pulse with nOvf := 2 } 0 .noRot 0 0 0 .none
    let is := [Instr.edge true false, .ovf, .edge false true]
    let count := pulsesIn s.cfg.pulseEdge (s.regs.state[1] :: (pairsOf (is ++ [.edgeOvf true true])).map (fun n => n[1]))
    s.Inv ∧ s.cfg.mode = .pulse ∧ s.regs.pcnt = 0 ∧ WithinPeriod s.regs is ∧ is.countP isOverflow + 1 = s.regs.ovfCnt ∧
      isOverflow (.edgeOvf true true) = true ∧ count = 2 ∧ count < 2 ^ s.cfg.pcntW := by decide

theorem witness_DirectIsVoteWithAWindowOfOne :
    let s := block { vote with ep := 1 } 0 .noRot 0 0 0 .none
    s.Inv ∧ s.cfg.mode = .vote ∧ s.cfg.ep = 1 ∧ (acceptedDecisions s.regs.state [1, 3, 3, 2]).length = [1, 3, 3, 2].length := by
  decide

theorem witness_BeforeTheFirstRstOnlyRstRuns :
    (State.powerOn vote).cfg.Valid ∧ (State.powerOn vote).rstSeen = false ∧ isRst .hrd = false ∧ isRst (.rst true false) = true := by
  decide

theorem witness_NoRegisterIsReadBeforeTheFirstRst :
    ((State.powerOn vote).withFetchWord 5 0x12).rstSeen = false ∧
    ((State.powerOn vote).withFetchWord 5 0x12).input = .event 0x12 :: [] := by decide

theorem witness_InvalidConfigurationIsRefused :
    ∀ c ∈ [{ vote with cpr := 0 }, { vote with ep := 0 }, { vote with t := 0 }, { vote with nOvf := 0 },
        { vote with accW := 1 }, { vote with accW := 6 }, { vote with pcntW := 0 }],
      ¬ (1 ≤ c.cpr ∧ 1 ≤ c.ep ∧ 0 < c.t ∧ 1 ≤ c.nOvf ∧ 2 ≤ c.accW ∧ c.ep < 2 ^ (c.accW - 1) ∧ 1 ≤ c.pcntW) := by
  decide

theorem witness_NoEventWritesAParameter : ∃ t, step (State.reset.withFetchWord 5 0x0D) = .next t :=
  ⟨rated (block vote 1 .ccw 0 1 0 .none) 0 0 1, next_of_nextOf (by decide +kernel)⟩

theorem witness_OutputFormatNeverReachesARegister : ∃ t, exec .ovf (block vote 3 .cw 7 8 50 .cw) = .next t :=
  ⟨rated (block vote 3 .cw 7 8 0 .cw) 0 (1/10) 1, next_of_nextOf (by decide +kernel)⟩

theorem witness_EveryStepKeepsTheInvariant :
    (State.reset.withFetchWord 5 0x0D).Inv ∧ ∃ t, step (State.reset.withFetchWord 5 0x0D) = .next t :=
  ⟨by decide, rated (block vote 1 .ccw 0 1 0 .none) 0 0 1, next_of_nextOf (by decide +kernel)⟩

theorem witness_RstEstablishesTheInvariant : ∃ t, exec (.rst true false) (State.powerOn vote) = .next t :=
  ⟨block vote 2 .noRot 0 0 0 .none, next_of_nextOf (by decide)⟩

theorem witness_BlockInUseNeverStops : (State.reset.withFetchWord 5 0x0E).Inv := by decide

end Sys2Proof.Tests
end

section

namespace Sys2Proof.Machine

/-! ## The configuration (R6, R9) -/

/-- An instruction that completes leaves the configuration as it was. -/
theorem exec_keeps_cfg {i : Instr} {s t : State} (h : exec i s = .next t) : t.cfg = s.cfg := by
  obtain ⟨_, _, -, -, rfl⟩ | ⟨-, -, rfl⟩ | ⟨_, _, -, -, rfl⟩ | ⟨-, -, rfl⟩ | ⟨_, _, -, -, rfl⟩ |
    ⟨-, -, rfl⟩ := exec_next h <;> rfl

/-- An event or a host read of a block that was never built is refused. -/
theorem whenReset_invalid {s : State} (h : ¬ s.cfg.Valid) (k) :
    whenReset s k = .refused .invalidConfiguration := whenBuilt_invalid h _

theorem exec_invalid {s : State} (h : ¬ s.cfg.Valid) (i : Instr) :
    exec i s = .refused .invalidConfiguration := by
  cases i with
  | rst a b => exact whenBuilt_invalid h _
  | idle => exact whenReset_invalid h _
  | edge a b => exact whenReset_invalid h _
  | ovf => exact whenReset_invalid h _
  | edgeOvf a b => exact whenReset_invalid h _
  | hrd => exact whenReset_invalid h _

/-! ## Wrap-around and widths (R8, R11) -/

theorem wrapS_eq_wrapS_iff {w : Nat} {u v : Int} : wrapS w u = wrapS w v ↔ (2 ^ w : Int) ∣ u - v := by
  rw [wrapS, wrapS, Int.bmod_eq_bmod_iff_bmod_sub_eq_zero, ← Int.dvd_iff_bmod_eq_zero]
  push_cast
  rfl

/-- The range of `wrapS` meets each class modulo `2^w` once. -/
theorem eq_wrapS_iff {w : Nat} (hw : 1 ≤ w) {v r : Int} :
    r = wrapS w v ↔ -(2 ^ (w - 1) : Int) ≤ r ∧ r < 2 ^ (w - 1) ∧ (2 ^ w : Int) ∣ r - v := by
  constructor
  · intro h
    obtain ⟨hlo, hhi⟩ := h ▸ wrapS_range hw v
    have hr : wrapS w r = wrapS w v := (wrapS_of_range hw ⟨hlo, hhi⟩).trans h
    exact ⟨hlo, hhi, wrapS_eq_wrapS_iff.mp hr⟩
  · rintro ⟨hlo, hhi, hdvd⟩
    calc r = wrapS w r := (wrapS_of_range hw ⟨hlo, hhi⟩).symm
      _ = wrapS w v := wrapS_eq_wrapS_iff.mpr hdvd

theorem wrapU_eq_emod (w : Nat) (v : Int) : (wrapU w v : Int) = v % 2 ^ w :=
  Int.toNat_of_nonneg (Int.emod_nonneg v (by positivity))

theorem widthFor_le_iff {n w : Nat} : widthFor n ≤ w ↔ n < 2 ^ w :=
  ⟨fun h => (lt_two_pow_widthFor n).trans_le (Nat.pow_le_pow_right two_pos h), widthFor_least⟩

end Sys2Proof.Machine

open Sys2Proof Sys2Proof.Machine

/-- Settles O41: a step with nothing presented keeps the state, and no instruction writes `cfg`. -/
theorem noEventWritesAParameter : Obligations.NoEventWritesAParameter := by
  intro s t h
  obtain ⟨-, -, rfl⟩ | ⟨x, rest, -, hx⟩ := step_next h
  · rfl
  · have hcfg := exec_keeps_cfg hx
    exact hcfg

/-- Settles O40: every meaning stands behind the guard `whenBuilt`. -/
theorem invalidConfigurationIsRefused : Obligations.InvalidConfigurationIsRefused :=
  fun _ i h => exec_invalid h i

/-- Settles O10, with the uniqueness of `wrap_s` from its range and its congruence. -/
theorem wrapAroundStaysInRangeAndCongruent : Obligations.WrapAroundStaysInRangeAndCongruent :=
  ⟨fun _ _ _ hw => eq_wrapS_iff hw, wrapU_eq_emod⟩

/-- Settles O11: a value at most `EP` or `N_OVF` fits the least width for it, and a tally short of a
window is below `EP`. -/
theorem widthsAreLeastAndSuffice : Obligations.WidthsAreLeastAndSuffice := by
  refine ⟨fun c w => ⟨widthFor_le_iff, widthFor_le_iff⟩, fun s hs => ?_⟩
  obtain ⟨-, htally, -, -, -, ⟨-, hovf⟩, -⟩ := hs
  have hep : s.cfg.ep < 2 ^ tallyW s.cfg := lt_two_pow_widthFor _
  have hn : s.cfg.nOvf < 2 ^ ovfW s.cfg := lt_two_pow_widthFor _
  refine ⟨?_, ?_, hep, ?_, hn⟩ <;> omega

end

section

namespace Sys2Proof.Machine

/-! ## Rounding to the nearest integer, ties to even (R7) -/

/-- `k` is an integer nearest to `y`, and the even one where two are. -/
def IsNearestEven (k : Nat) (y : Rat) : Prop :=
  |(k : Rat) - y| ≤ 1 / 2 ∧ (|(k : Rat) - y| = 1 / 2 → Even k)

/-- No integer is nearer, and one that is as near is the same or an odd neighbour. -/
theorem IsNearestEven.le_of_nat {k : Nat} {y : Rat} (h : IsNearestEven k y) (j : Nat) :
    |(k : Rat) - y| ≤ |(j : Rat) - y| ∧ (|(k : Rat) - y| = |(j : Rat) - y| → j = k ∨ Even k) := by
  obtain ⟨hle, heven⟩ := h
  by_cases hj : j = k
  · subst hj
    exact ⟨le_rfl, fun _ => .inl rfl⟩
  · have hgap : (1 : Rat) ≤ |(j : Rat) - k| := by
      exact_mod_cast Int.one_le_abs (sub_ne_zero.mpr (Nat.cast_injective.ne hj))
    have htri : |(j : Rat) - k| ≤ |(j : Rat) - y| + |(k : Rat) - y| := by
      rw [abs_sub_comm (k : Rat)]
      exact abs_sub_le _ _ _
    exact ⟨by linarith, fun heq => .inr (heven (by linarith))⟩

theorem IsNearestEven.of_lt {k : Nat} {y : Rat} (h : |(k : Rat) - y| < 1 / 2) : IsNearestEven k y :=
  ⟨h.le, fun heq => absurd heq h.ne⟩

theorem roundHalfEven_isNearestEven (n : Nat) {d : Nat} (hd : 0 < d) :
    IsNearestEven (roundHalfEven n d) ((n : Rat) / d) := by
  have hd' : (0 : Rat) < d := by exact_mod_cast hd
  have hdiv : (n : Rat) / d = (n / d : Nat) + ((n % d : Nat) : Rat) / d := by
    field_simp
    exact_mod_cast (Nat.div_add_mod n d).symm
  have hlow : ((n % d : Nat) : Rat) / d < 1 / 2 ↔ 2 * (n % d) < d := by
    rw [div_lt_div_iff₀ hd' two_pos]
    norm_cast
    omega
  have hhigh : 1 / 2 < ((n % d : Nat) : Rat) / d ↔ d < 2 * (n % d) := by
    rw [div_lt_div_iff₀ two_pos hd']
    norm_cast
    omega
  have hnonneg : (0 : Rat) ≤ ((n % d : Nat) : Rat) / d := by positivity
  have hlt : ((n % d : Nat) : Rat) / d < 1 := (div_lt_one hd').mpr (by exact_mod_cast Nat.mod_lt n hd)
  rw [hdiv, roundHalfEven]
  simp only [gt_iff_lt, ← hlow, ← hhigh]
  generalize ((n % d : Nat) : Rat) / d = f at *
  generalize n / d = k
  split
  · apply IsNearestEven.of_lt
    rw [abs_lt]
    constructor <;> linarith
  · split
    · apply IsNearestEven.of_lt
      rw [abs_lt]
      push_cast
      constructor <;> linarith
    · refine ⟨?_, fun _ => by rw [Nat.even_iff]; omega⟩
      rw [abs_le]
      obtain h | h := Nat.mod_two_eq_zero_or_one k <;> rw [h] <;> push_cast <;> constructor <;> linarith

/-! ## The leading bit of a quotient and its scaling (R66) -/

/-- Shifting the numerator left for a negative exponent, or the denominator for a positive one, divides
by the power of two. -/
theorem shifted_quotient (n d : Nat) (u : Int) :
    ((n * 2 ^ (-u).toNat : Nat) : Rat) / ((d * 2 ^ u.toNat : Nat) : Rat) = (n : Rat) / d / 2 ^ u := by
  obtain ⟨k, rfl | rfl⟩ := u.eq_nat_or_neg
  · simp [div_div]
  · simp [div_mul_eq_mul_div]

theorem floorLog2_spec {n d : Nat} (hn : 0 < n) (hd : 0 < d) :
    (2 : Rat) ^ floorLog2 n d ≤ (n : Rat) / d ∧ (n : Rat) / d < 2 ^ (floorLog2 n d + 1) := by
  have hd' : (0 : Rat) < d := by exact_mod_cast hd
  have hn' : (0 : Rat) < n := by exact_mod_cast hn
  have hnlo : (2 : Rat) ^ n.log2 ≤ n := by exact_mod_cast Nat.log2_self_le hn.ne'
  have hnhi : (n : Rat) < 2 ^ (n.log2 + 1) := by exact_mod_cast Nat.lt_log2_self
  have hdlo : (2 : Rat) ^ d.log2 ≤ d := by exact_mod_cast Nat.log2_self_le hd.ne'
  have hdhi : (d : Rat) < 2 ^ (d.log2 + 1) := by exact_mod_cast Nat.lt_log2_self
  have htest (e : Int) : d * 2 ^ e.toNat ≤ n * 2 ^ (-e).toNat ↔ (2 : Rat) ^ e ≤ (n : Rat) / d := by
    rw [← one_le_div₀ (zpow_pos two_pos e), ← shifted_quotient, one_le_div₀ (by positivity)]
    norm_cast
  have hupper : (n : Rat) / d < 2 ^ ((n.log2 : Int) - d.log2 + 1) := by
    rw [div_lt_iff₀ hd']
    calc (n : Rat) < 2 ^ (n.log2 + 1) := hnhi
      _ = 2 ^ ((n.log2 : Int) - d.log2 + 1) * 2 ^ d.log2 := by
        rw [← zpow_natCast, ← zpow_natCast, ← zpow_add₀ two_ne_zero]
        congr 1
        push_cast
        ring
      _ ≤ 2 ^ ((n.log2 : Int) - d.log2 + 1) * d := by gcongr
  have hlower : (2 : Rat) ^ ((n.log2 : Int) - d.log2 - 1) ≤ (n : Rat) / d := by
    rw [le_div_iff₀ hd']
    calc (2 : Rat) ^ ((n.log2 : Int) - d.log2 - 1) * d
        ≤ 2 ^ ((n.log2 : Int) - d.log2 - 1) * 2 ^ (d.log2 + 1) := by gcongr
      _ = 2 ^ n.log2 := by
        rw [← zpow_natCast, ← zpow_natCast, ← zpow_add₀ two_ne_zero]
        congr 1
        push_cast
        ring
      _ ≤ n := hnlo
  simp only [floorLog2, htest]
  split
  · exact ⟨‹_›, hupper⟩
  · exact ⟨hlower, by rw [sub_add_cancel]; exact not_le.mp ‹_›⟩

/-! ## Where a rate lies on the grid of its binade -/

theorem subnormalsPerOne_pos : 0 < subnormalsPerOne := by
  unfold subnormalsPerOne
  positivity

/-- `q` in units in the last place of the binade number `e`, binade 0 holding the subnormals too. -/
def inUlps (q : Rat) (e : Nat) : Rat := q * subnormalsPerOne / 2 ^ e

/-- The rate `q` lies in binade `e` and rounds to `k` units in the last place there. -/
structure RoundsTo (q : Rat) (e k : Nat) : Prop where
  lt_binade : inUlps q e < 2 ^ 53
  binade_le : e = 0 ∨ 2 ^ 52 ≤ inUlps q e
  nearest : IsNearestEven k (inUlps q e)

theorem RoundsTo.le_two_pow {q : Rat} {e k : Nat} (h : RoundsTo q e k) : k ≤ 2 ^ 53 := by
  have hk : (k : Rat) < (2 ^ 53 + 1 : Nat) := by
    have := (abs_le.mp h.nearest.1).2
    have := h.lt_binade
    push_cast
    linarith
  exact Nat.lt_succ_iff.mp (by exact_mod_cast hk)

theorem RoundsTo.two_pow_le {q : Rat} {e k : Nat} (h : RoundsTo q e k) (he : e ≠ 0) : 2 ^ 52 ≤ k := by
  have hk : ((2 ^ 52 : Nat) : Rat) < (k + 1 : Nat) := by
    have := (abs_le.mp h.nearest.1).1
    have := h.binade_le.resolve_left he
    push_cast
    linarith
  exact Nat.lt_succ_iff.mp (by exact_mod_cast hk)

theorem inUlps_toNat (q : Rat) {e : Int} (he : -1022 ≤ e) :
    inUlps q (e + 1022).toNat = q / 2 ^ (e - 52) := by
  have hexp : ((e + 1022).toNat : Int) = e - 52 + (1074 : Nat) := by omega
  rw [inUlps, subnormalsPerOne, ← zpow_natCast 2 (e + 1022).toNat, hexp, zpow_add₀ two_ne_zero,
    zpow_natCast, mul_div_mul_right _ _ (by positivity)]

/-- The default encoding places a positive rate in its binade and rounds it there. -/
theorem binary64Magnitude_roundsTo {q : Rat} (hq : 0 < q) :
    ∃ e k, binary64Magnitude q.num.toNat q.den = e * 2 ^ 52 + k ∧ RoundsTo q e k := by
  have hnum : 0 < q.num := Rat.num_pos.mpr hq
  have hquot : ((q.num.toNat : Nat) : Rat) / q.den = q := by
    have hcast : ((q.num.toNat : Nat) : Rat) = (q.num : Rat) := by exact_mod_cast Int.toNat_of_nonneg hnum.le
    rw [hcast, Rat.num_div_den]
  obtain ⟨hlo, hhi⟩ := floorLog2_spec (n := q.num.toNat) (d := q.den) (by omega) q.den_pos
  rw [hquot] at hlo hhi
  simp only [binary64Magnitude]
  generalize floorLog2 q.num.toNat q.den = l at *
  have hmin : -1022 ≤ max l (-1022) := le_max_right ..
  refine ⟨(max l (-1022) + 1022).toNat, _, rfl, ?_, ?_, ?_⟩
  · rw [inUlps_toNat q hmin, div_lt_iff₀ (by positivity), ← zpow_natCast, ← zpow_add₀ two_ne_zero]
    exact hhi.trans_le (zpow_le_zpow_right₀ one_le_two (by push_cast; omega))
  · refine (le_or_gt l (-1022)).imp (fun h => by omega) (fun h => ?_)
    rw [inUlps_toNat q hmin, le_div_iff₀ (by positivity), ← zpow_natCast, ← zpow_add₀ two_ne_zero]
    exact (zpow_le_zpow_right₀ one_le_two (by push_cast; omega)).trans hlo
  · rw [inUlps_toNat q hmin, ← hquot, ← shifted_quotient, hquot]
    exact roundHalfEven_isNearestEven _ (by have := q.den_pos; positivity)

/-! ## The value of a word's magnitude -/

/-- The value of a magnitude, the low 63 bits of a word, in units of the least subnormal number. -/
def magnitudeUnits (m : Nat) : Nat :=
  if m / 2 ^ 52 = 0 then m % 2 ^ 52 else (2 ^ 52 + m % 2 ^ 52) * 2 ^ (m / 2 ^ 52 - 1)

theorem exponent_toNat (w : RateWord) :
    (w.extractLsb' 52 11).toNat = w.toNat % 2 ^ 63 / 2 ^ 52 := by
  rw [BitVec.extractLsb'_toNat, Nat.shiftRight_eq_div_pow]
  omega

theorem fraction_toNat (w : RateWord) :
    (w.extractLsb' 0 52).toNat = w.toNat % 2 ^ 63 % 2 ^ 52 := by
  rw [BitVec.extractLsb'_toNat, Nat.shiftRight_zero]
  omega

theorem binary64Value_eq (w : RateWord) :
    binary64Value w = magnitudeUnits (w.toNat % 2 ^ 63) / subnormalsPerOne := by
  rw [binary64Value, exponent_toNat, fraction_toNat]
  rfl

theorem binary64Value_zero : binary64Value 0 = 0 := zero_div _

/-- Below the exponent field of all ones a word is finite. -/
theorem isFiniteBinary64_of_lt {w : RateWord} (h : w.toNat < 0x7FF * 2 ^ 52) : isFiniteBinary64 w = true := by
  rw [isFiniteBinary64, bne_iff_ne]
  intro heq
  have hexp := exponent_toNat w
  have hones : (0x7FF : BitVec 11).toNat = 2047 := rfl
  rw [heq, hones] at hexp
  omega

/-- A magnitude built as in `binary64Magnitude` is worth its count of units in the last place, also where
rounding carried into the exponent. -/
theorem magnitudeUnits_of_ulps {e k : Nat} (hk : k ≤ 2 ^ 53) (he : e ≠ 0 → 2 ^ 52 ≤ k) :
    magnitudeUnits (e * 2 ^ 52 + k) = k * 2 ^ e := by
  unfold magnitudeUnits
  obtain hlt | rfl | ⟨hle, hlt⟩ : k < 2 ^ 52 ∨ k = 2 ^ 53 ∨ 2 ^ 52 ≤ k ∧ k < 2 ^ 53 := by omega
  · obtain rfl : e = 0 := by omega
    rw [if_pos (by omega)]
    omega
  · rw [if_neg (by omega), show (e * 2 ^ 52 + 2 ^ 53) / 2 ^ 52 - 1 = e + 1 by omega,
      show (e * 2 ^ 52 + 2 ^ 53) % 2 ^ 52 = 0 by omega]
    ring
  · rw [if_neg (by omega), show (e * 2 ^ 52 + k) / 2 ^ 52 - 1 = e by omega,
      show 2 ^ 52 + (e * 2 ^ 52 + k) % 2 ^ 52 = k by omega]

/-- A value is a whole number of units in the last place of binade `e`, or lies below the binade. -/
theorem magnitudeUnits_dvd_or_lt (m e : Nat) :
    2 ^ e ∣ magnitudeUnits m ∨ e ≠ 0 ∧ magnitudeUnits m < 2 ^ 52 * 2 ^ e := by
  have hfrac : m % 2 ^ 52 < 2 ^ 52 := Nat.mod_lt _ (by positivity)
  unfold magnitudeUnits
  split
  · obtain rfl | he := eq_or_ne e 0
    · exact .inl (one_dvd _)
    · exact .inr ⟨he, hfrac.trans_le (Nat.le_mul_of_pos_right _ (by positivity))⟩
  · obtain h | h := le_or_gt e (m / 2 ^ 52 - 1)
    · exact .inl ((pow_dvd_pow 2 h).mul_left _)
    · refine .inr ⟨Nat.ne_zero_of_lt h, ?_⟩
      calc (2 ^ 52 + m % 2 ^ 52) * 2 ^ (m / 2 ^ 52 - 1)
          < 2 ^ 53 * 2 ^ (m / 2 ^ 52 - 1) := by gcongr; omega
        _ = 2 ^ 52 * 2 ^ (m / 2 ^ 52 - 1 + 1) := by ring
        _ ≤ 2 ^ 52 * 2 ^ e := by gcongr <;> omega

/-! ## The nearest word, and infinity (R66, R123) -/

/-- The distance of a value of `u` units from `q`, counted in units in the last place of binade `e`. -/
theorem abs_value_sub_eq (u e : Nat) (q : Rat) :
    |(u : Rat) / subnormalsPerOne - q| = |(u : Rat) / 2 ^ e - inUlps q e| * (2 ^ e / subnormalsPerOne) := by
  have hs := subnormalsPerOne_pos
  rw [inUlps]
  generalize subnormalsPerOne = one at *
  rw [← abs_of_pos (a := 2 ^ e / one) (by positivity), ← abs_mul]
  congr 1
  field_simp

theorem RoundsTo.le_of_units {q : Rat} {e k : Nat} (h : RoundsTo q e k) (m : Nat) :
    |(k : Rat) - inUlps q e| ≤ |(magnitudeUnits m : Rat) / 2 ^ e - inUlps q e| ∧
    (|(k : Rat) - inUlps q e| = |(magnitudeUnits m : Rat) / 2 ^ e - inUlps q e| →
      magnitudeUnits m = k * 2 ^ e ∨ Even k) := by
  obtain ⟨j, hj⟩ | ⟨he, hlt⟩ := magnitudeUnits_dvd_or_lt m e
  · obtain ⟨hle, htie⟩ := h.nearest.le_of_nat j
    have hcast : (magnitudeUnits m : Rat) / 2 ^ e = j := by
      rw [hj]
      push_cast
      field_simp
    rw [hcast]
    refine ⟨hle, fun heq => (htie heq).imp_left fun hjk => ?_⟩
    rw [hj, hjk, Nat.mul_comm]
  · have hlow : (magnitudeUnits m : Rat) / 2 ^ e < 2 ^ 52 := by
      rw [div_lt_iff₀ (by positivity)]
      exact_mod_cast hlt
    have hbin := h.binade_le.resolve_left he
    have hle := (h.nearest.le_of_nat (2 ^ 52)).1
    rw [Nat.cast_pow, Nat.cast_ofNat, abs_of_nonpos (sub_nonpos.mpr hbin)] at hle
    have hfar : |(k : Rat) - inUlps q e| < |(magnitudeUnits m : Rat) / 2 ^ e - inUlps q e| := by
      rw [abs_of_neg (a := (magnitudeUnits m : Rat) / 2 ^ e - inUlps q e) (by linarith)]
      linarith
    exact ⟨hfar.le, fun heq => absurd heq hfar.ne⟩

/-- A word whose magnitude is the rounded rate is nearest to the rate among all words. -/
theorem RoundsTo.value_nearest {q : Rat} {e k : Nat} (h : RoundsTo q e k) {w : RateWord}
    (hw : w.toNat % 2 ^ 63 = e * 2 ^ 52 + k) (v : RateWord) :
    |binary64Value w - q| ≤ |binary64Value v - q| ∧
    (|binary64Value w - q| = |binary64Value v - q| →
      binary64Value v = binary64Value w ∨ Even k) := by
  have hscale : (0 : Rat) < 2 ^ e / subnormalsPerOne := div_pos (by positivity) subnormalsPerOne_pos
  have hunits := magnitudeUnits_of_ulps h.le_two_pow h.two_pow_le
  have hcast : ((k * 2 ^ e : Nat) : Rat) / 2 ^ e = k := by
    push_cast
    field_simp
  obtain ⟨hle, htie⟩ := h.le_of_units (v.toNat % 2 ^ 63)
  rw [binary64Value_eq, binary64Value_eq, hw, hunits, abs_value_sub_eq _ e, abs_value_sub_eq _ e, hcast,
    mul_le_mul_iff_left₀ hscale, mul_left_inj' hscale.ne']
  exact ⟨hle, fun heq => (htie heq).imp_left fun hv => by rw [hv]⟩

/-! ## The last finite binade -/

theorem inUlps_le_inUlps {p q : Rat} (h : p ≤ q) (e : Nat) : inUlps p e ≤ inUlps q e :=
  div_le_div_of_nonneg_right (mul_le_mul_of_nonneg_right h subnormalsPerOne_pos.le) (by positivity)

theorem inUlps_lt_inUlps {p q : Rat} (h : p < q) (e : Nat) : inUlps p e < inUlps q e :=
  div_lt_div_of_pos_right (mul_lt_mul_of_pos_right h subnormalsPerOne_pos) (by positivity)

theorem inUlps_anti {q : Rat} (hq : 0 ≤ q) {e f : Nat} (h : e ≤ f) : inUlps q f ≤ inUlps q e :=
  div_le_div_of_nonneg_left (mul_nonneg hq subnormalsPerOne_pos.le) (by positivity)
    (pow_le_pow_right₀ one_le_two h)

theorem inUlps_succ (q : Rat) (e : Nat) : inUlps q (e + 1) = inUlps q e / 2 := by
  rw [inUlps, inUlps, pow_succ, div_div]

theorem binary64Limit_pos : 0 < binary64Limit :=
  sub_pos.mpr (pow_lt_pow_right₀ one_lt_two (by norm_num))

/-- The limit is half a unit in the last place below the end of the last finite binade. -/
theorem inUlps_binary64Limit : inUlps binary64Limit 2045 = 2 ^ 53 - 1 / 2 := by
  have hend : (2 : Rat) ^ 1024 * 2 ^ 1074 = 2 ^ 53 * 2 ^ 2045 := by rw [← pow_add, ← pow_add]
  have hhalf : (2 : Rat) ^ 970 * 2 ^ 1074 = 1 / 2 * 2 ^ 2045 := by
    rw [← pow_add, one_div, eq_inv_mul_iff_mul_eq₀ two_ne_zero, ← pow_succ']
  rw [inUlps, binary64Limit, subnormalsPerOne, div_eq_iff (by positivity), sub_mul, sub_mul, hend, hhalf]

/-- Below the limit a rate rounds to a finite magnitude. -/
theorem RoundsTo.lt_infinity {q : Rat} {e k : Nat} (h : RoundsTo q e k) (hq : q < binary64Limit) :
    e * 2 ^ 52 + k < 0x7FF * 2 ^ 52 := by
  have hk := h.le_two_pow
  have hulps := inUlps_lt_inUlps hq e
  obtain hlt | rfl | hgt := lt_trichotomy e 2045
  · omega
  · have hk' : (k : Rat) < (2 ^ 53 : Nat) := by
      have := (abs_le.mp h.nearest.1).2
      rw [inUlps_binary64Limit] at hulps
      push_cast
      linarith
    have : k < 2 ^ 53 := by exact_mod_cast hk'
    omega
  · have hbin := h.binade_le.resolve_left (by omega)
    have hanti := inUlps_anti binary64Limit_pos.le (show 2045 + 1 ≤ e from hgt)
    rw [inUlps_succ, inUlps_binary64Limit] at hanti
    linarith

/-- From the limit on a rate rounds to the magnitude of infinity or beyond. At the limit itself the tie
goes to the even side. -/
theorem RoundsTo.infinity_le {q : Rat} {e k : Nat} (h : RoundsTo q e k) (hq : binary64Limit ≤ q) :
    0x7FF * 2 ^ 52 ≤ e * 2 ^ 52 + k := by
  have hulps := inUlps_le_inUlps hq e
  obtain hlt | rfl | hgt := lt_trichotomy e 2045
  · have hanti := inUlps_anti binary64Limit_pos.le (show e ≤ 2044 by omega)
    have hsucc := inUlps_succ binary64Limit 2044
    rw [inUlps_binary64Limit] at hsucc
    linarith [h.lt_binade]
  · rw [inUlps_binary64Limit] at hulps
    obtain ⟨hle, heven⟩ := h.nearest
    have hlow := (abs_le.mp hle).1
    have hne : k ≠ 2 ^ 53 - 1 := by
      rintro rfl
      have htie : |((2 ^ 53 - 1 : Nat) : Rat) - inUlps q 2045| = 1 / 2 := by
        refine le_antisymm hle (le_abs.mpr (.inr ?_))
        push_cast
        linarith
      exact absurd (heven htie) (by decide)
    have hk : ((2 ^ 53 - 1 : Nat) : Rat) ≤ k := by
      push_cast
      linarith
    have hk' : 2 ^ 53 - 1 ≤ k := by exact_mod_cast hk
    omega
  · have := h.two_pow_le (by omega)
    omega

/-! ## The word of a rate -/

theorem binary64Word_toNat {q : Rat} (hq : 0 < q) :
    (binary64Word q).toNat = min (binary64Magnitude q.num.toNat q.den) (0x7FF * 2 ^ 52) := by
  rw [binary64Word_of_pos hq, BitVec.toNat_ofNat]
  omega

theorem binary64Word_zero : binary64Word 0 = 0 := rfl

theorem binary64Word_of_limit_le {q : Rat} (hq : binary64Limit ≤ q) :
    binary64Word q = 0x7FF0000000000000 := by
  have hpos : 0 < q := binary64Limit_pos.trans_le hq
  obtain ⟨e, k, hmag, hround⟩ := binary64Magnitude_roundsTo hpos
  have hinf := hround.infinity_le hq
  apply BitVec.eq_of_toNat_eq
  rw [binary64Word_toNat hpos, hmag, min_eq_right hinf]
  rfl

/-- The word of a positive rate below the limit is its rounded magnitude. -/
theorem binary64Word_of_lt_limit {q : Rat} (hpos : 0 < q) (hq : q < binary64Limit) :
    ∃ e k, RoundsTo q e k ∧ (binary64Word q).toNat = e * 2 ^ 52 + k ∧
      (binary64Word q).toNat < 0x7FF * 2 ^ 52 := by
  obtain ⟨e, k, hmag, hround⟩ := binary64Magnitude_roundsTo hpos
  have hlt := hround.lt_infinity hq
  have hword := binary64Word_toNat hpos
  rw [hmag, min_eq_left hlt.le] at hword
  exact ⟨e, k, hround, hword, hword ▸ hlt⟩

theorem bit_zero_of_even {w : RateWord} (h : w.toNat % 2 = 0) : w[0] = false := by
  rw [← BitVec.getLsbD_eq_getElem, BitVec.getLsbD, Nat.testBit_zero, h]
  rfl

theorem sign_of_lt {w : RateWord} (h : w.toNat < 2 ^ 63) : w[63] = false := by
  rw [← BitVec.getLsbD_eq_getElem, BitVec.getLsbD, Nat.testBit_lt_two_pow h]

end Sys2Proof.Machine

open Sys2Proof Sys2Proof.Machine

/-- Settles O29: a positive rate below the limit is rounded on the grid of its own binade, and every
word's value is on that grid or below the binade. -/
theorem rateWordIsNearestBinary64 : Obligations.RateWordIsNearestBinary64 := by
  refine ⟨binary64Word_zero, fun q => binary64Word_of_limit_le, fun q hnonneg hq => ?_⟩
  obtain rfl | hpos := hnonneg.eq_or_lt
  · rw [binary64Word_zero]
    refine ⟨rfl, rfl, fun v _ => ⟨?_, fun _ => .inr rfl⟩⟩
    rw [binary64Value_zero, sub_zero, abs_zero]
    exact abs_nonneg _
  · obtain ⟨e, k, hround, hword, hlt⟩ := binary64Word_of_lt_limit hpos hq
    refine ⟨sign_of_lt (by omega), isFiniteBinary64_of_lt hlt, fun v _ => ?_⟩
    obtain ⟨hle, htie⟩ := hround.value_nearest (w := binary64Word q) (by omega) v
    refine ⟨hle, fun heq => (htie heq).imp_right fun hk => bit_zero_of_even ?_⟩
    have := Nat.even_iff.mp hk
    omega

end

section

namespace Sys2Proof.Machine

variable {c : Config} {r : Regs}

/-! ## Before the first RST (R39, R170) -/

/-- Before the first RST the guard drops the meaning behind it. -/
theorem whenReset_before_rst {s : State} (h : s.rstSeen = false) (k) :
    whenReset s k = whenBuilt s (.fault .noValueBeforeReset) := by
  simp [whenReset, h]

/-- RST overwrites the registers and every other instruction faults, so none of them reads a
placeholder. -/
theorem exec_with_regs_before_rst {s : State} (h : s.rstSeen = false) (r : Regs) (i : Instr) :
    exec i { s with regs := r } = exec i s := by
  have hguard (k k') : whenReset { s with regs := r } k = whenReset s k' :=
    calc whenReset { s with regs := r } k
        = whenBuilt { s with regs := r } (.fault .noValueBeforeReset) := whenReset_before_rst h k
      _ = whenBuilt s (.fault .noValueBeforeReset) := rfl
      _ = whenReset s k' := (whenReset_before_rst h k').symm
  cases i with
  | rst a b => rfl
  | idle => exact hguard _ _
  | edge a b => exact hguard _ _
  | ovf => exact hguard _ _
  | edgeOvf a b => exact hguard _ _
  | hrd => exact hguard _ _

/-! ## The invariant of the registers, event by event (R25 to R27, R31, R106, R123) -/

theorem zero_in_signed_range (w : Nat) : -(2 ^ (w - 1) : Int) ≤ 0 ∧ (0 : Int) < 2 ^ (w - 1) :=
  ⟨neg_nonpos.mpr (by positivity), by positivity⟩

theorem creditWindow_acc_range (hw : 1 ≤ c.accW)
    (hacc : -(2 ^ (c.accW - 1) : Int) ≤ r.acc ∧ r.acc < 2 ^ (c.accW - 1)) (verdict : Direction) :
    -(2 ^ (c.accW - 1) : Int) ≤ (creditWindow c verdict r).acc ∧
      (creditWindow c verdict r).acc < 2 ^ (c.accW - 1) := by
  cases verdict with
  | none => exact hacc
  | cw => exact wrapS_range hw _
  | ccw => exact wrapS_range hw _

theorem afterRst_inv (hc : c.Valid) (p : StateCode) : (Regs.afterRst c p).Inv c := by
  obtain ⟨-, hep, -, hovf, -⟩ := hc
  exact ⟨hep, zero_in_signed_range _, Nat.two_pow_pos _, le_rfl, ⟨hovf, le_rfl⟩, fun _ => ⟨rfl, rfl⟩,
    fun _ => rfl, fun _ => rfl, fun _ => ⟨rfl, rfl, rfl⟩⟩

/-- One decision adds at most one to the tallies: a window that is not filled stays short, and a filled
one starts again from 0. -/
theorem edgeVote_inv (hc : c.Valid) (hm : c.mode = .vote) (n : StateCode) (h : r.Inv c) :
    (edgeVote c n r).Inv c := by
  obtain ⟨-, hep, -, -, hw, -⟩ := hc
  obtain ⟨htally, hacc, hpcnt, hrate, hovf, -, hpcnt0, -, -⟩ := h
  by_cases hfull : talliedCw n r + talliedCcw n r = c.ep
  · rw [edgeVote_of_full htally hfull]
    exact ⟨hep, creditWindow_acc_range (by omega) hacc _, hpcnt, hrate, hovf, by simp, hpcnt0,
      by simp [hm], by simp [hm]⟩
  · have hshort : talliedCw n r + talliedCcw n r < c.ep := by
      have hsum := tallied_sum (n := n) (r := r)
      split at hsum <;> omega
    rw [edgeVote_of_short htally hfull]
    exact ⟨hshort, hacc, hpcnt, hrate, hovf, by simp [hm], hpcnt0, by simp [hm], by simp [hm]⟩

/-- A decided transition writes `DIR` from the decision it writes to `OLD_ROT`. -/
theorem edgeDirect_inv (hc : c.Valid) (hm : c.mode = .direct) (n : StateCode) (h : r.Inv c) :
    (edgeDirect c n r).Inv c := by
  cases hclass : classify r.state n with
  | sentinel => rwa [edgeDirect_of_sentinel hclass]
  | decided d =>
    obtain ⟨-, -, -, -, hw, -⟩ := hc
    obtain ⟨htally, -, hpcnt, hrate, hovf, htally0, hpcnt0, -, -⟩ := h
    rw [edgeDirect_of_decided hclass]
    exact ⟨htally, wrapS_range (by omega) _, hpcnt, hrate, hovf, htally0, hpcnt0, fun _ => rfl,
      by simp [hm]⟩

theorem edgePulse_inv (hm : c.mode = .pulse) (n : StateCode) (h : r.Inv c) :
    (edgePulse c n r).Inv c := by
  obtain ⟨htally, hacc, hpcnt, hrate, hovf, htally0, -, hdir, hpulse⟩ := h
  have hcount : (edgePulse c n r).pcnt < 2 ^ c.pcntW := by
    rw [edgePulse_eq]
    dsimp only
    split
    · exact wrapU_lt _ _
    · exact hpcnt
  rw [edgePulse_eq] at hcount ⊢
  exact ⟨htally, hacc, hcount, hrate, hovf, htally0, by simp [hm], hdir, hpulse⟩

theorem edgeRegs_inv (hc : c.Valid) (n : StateCode) (h : r.Inv c) : (edgeRegs c n r).Inv c := by
  unfold edgeRegs
  split
  · exact edgeVote_inv hc ‹_› n h
  · exact edgeDirect_inv hc ‹_› n h
  · exact edgePulse_inv ‹_› n h

/-- A sample leaves a rate of some count, and 0 in the register it was taken from. -/
theorem sampleRegs_inv (hc : c.Valid) (h : r.Inv c) : (sampleRegs c r).Inv c := by
  obtain ⟨htally, hacc, hpcnt, -, hovf, htally0, hpcnt0, hdir, hpulse⟩ := h
  by_cases hm : c.mode = .pulse
  · rw [sampleRegs_pcnt hm]
    exact ⟨htally, hacc, Nat.two_pow_pos _, rateOf_nonneg hc _, hovf, htally0, fun _ => rfl, hdir, hpulse⟩
  · rw [sampleRegs_acc hm]
    exact ⟨htally, zero_in_signed_range _, hpcnt, rateOf_nonneg hc _, hovf, htally0, hpcnt0, hdir,
      fun hp => absurd hp hm⟩

/-- The invariant looks at `OVF_CNT` only for its range. -/
theorem Regs.Inv.with_ovfCnt (h : r.Inv c) {k : Nat} (hk : 1 ≤ k ∧ k ≤ c.nOvf) :
    { r with ovfCnt := k }.Inv c := by
  obtain ⟨htally, hacc, hpcnt, hrate, -, hmodes⟩ := h
  exact ⟨htally, hacc, hpcnt, hrate, hk, hmodes⟩

theorem ovfRegs_inv (hc : c.Valid) (h : r.Inv c) : (ovfRegs c r).Inv c := by
  have ⟨_, _, _, hn, _⟩ := hc
  have ⟨_, _, _, _, ⟨hlo, hhi⟩, _⟩ := h
  obtain hlast | hmore : r.ovfCnt = 1 ∨ 2 ≤ r.ovfCnt := by omega
  · rw [ovfRegs_of_last hlast hhi]
    exact (sampleRegs_inv hc h).with_ovfCnt ⟨hn, le_rfl⟩
  · rw [ovfRegs_of_more hmore hhi]
    exact h.with_ovfCnt (by omega)

/-- Whatever is presented to a block in use, its effect keeps the invariant of the registers. -/
theorem effect_inv (hc : c.Valid) (h : r.Inv c) (i : Instr) : (effect c i r).Inv c := by
  cases i with
  | rst a b => exact afterRst_inv hc _
  | idle => exact h
  | edge a b => exact edgeRegs_inv hc _ h
  | ovf => exact ovfRegs_inv hc h
  | edgeOvf a b => exact ovfRegs_inv hc (edgeRegs_inv hc _ h)
  | hrd => exact h

theorem exec_inv {s t : State} {i : Instr} (hs : s.Inv) (h : exec i s = .next t) : t.Inv := by
  obtain ⟨hready, hregs⟩ := hs
  rw [exec_ready hready] at h
  cases h
  exact ⟨hready, effect_inv hready.1 hregs i⟩

end Sys2Proof.Machine

open Sys2Proof Sys2Proof.Machine

/-- Settles O43: a step with nothing presented keeps the state, and every instruction's effect on the
registers keeps their invariant. -/
theorem everyStepKeepsTheInvariant : Obligations.EveryStepKeepsTheInvariant := by
  intro s t hs h
  obtain ⟨-, -, rfl⟩ | ⟨x, rest, -, hx⟩ := step_next h
  · exact hs
  · have hrest : { s with input := rest }.Inv := hs
    exact exec_inv hrest hx

/-- Settles O39: what is presented is decoded without the registers, and executed without reading
them. -/
theorem noRegisterIsReadBeforeTheFirstRst : Obligations.NoRegisterIsReadBeforeTheFirstRst := by
  intro s r x rest hseen hinput
  calc step { s with regs := r }
      = exec (decode x) { s with regs := r, input := rest } := step_of_cons hinput
    _ = exec (decode x) { s with input := rest } :=
      exec_with_regs_before_rst (s := { s with input := rest }) hseen r (decode x)
    _ = step s := (step_of_cons hinput).symm

end

section

namespace Sys2Proof.Machine

/-! ## One event after another (R55, R56) -/

/-- A block that has completed an instruction is in use: RST has just been applied, and no other
instruction completes before it. -/
theorem exec_next_ready {i : Instr} {s t : State} (h : exec i s = .next t) : t.Ready := by
  obtain ⟨_, _, -, hvalid, rfl⟩ | ⟨-, hready, rfl⟩ | ⟨_, _, -, hready, rfl⟩ | ⟨-, hready, rfl⟩ |
    ⟨_, _, -, hready, rfl⟩ | ⟨-, hready, rfl⟩ := exec_next h
  · exact ⟨hvalid, rfl⟩
  all_goals exact hready

theorem exec_keeps_input {i : Instr} {s t : State} (h : exec i s = .next t) : t.input = s.input := by
  obtain ⟨_, _, -, -, rfl⟩ | ⟨-, -, rfl⟩ | ⟨_, _, -, -, rfl⟩ | ⟨-, -, rfl⟩ | ⟨_, _, -, -, rfl⟩ |
    ⟨-, -, rfl⟩ := exec_next h <;> rfl

/-- From a built block RST always completes, and any other instruction once a RST has been applied. -/
theorem exec_completes_iff {i : Instr} {s : State} :
    (∃ t, exec i s = .next t) ↔ s.cfg.Valid ∧ (isRst i = true ∨ s.rstSeen = true) := by
  constructor
  · rintro ⟨t, h⟩
    obtain ⟨_, _, rfl, hvalid, -⟩ | ⟨-, hready, -⟩ | ⟨_, _, -, hready, -⟩ | ⟨-, hready, -⟩ |
      ⟨_, _, -, hready, -⟩ | ⟨-, hready, -⟩ := exec_next h
    · exact ⟨hvalid, .inl rfl⟩
    all_goals exact ⟨hready.1, .inr hready.2⟩
  · rintro ⟨hvalid, hrst | hseen⟩
    · cases i with
      | rst a b => exact ⟨_, whenBuilt_valid hvalid _⟩
      | idle | edge _ _ | ovf | edgeOvf _ _ | hrd => cases hrst
    · exact ⟨_, exec_ready ⟨hvalid, hseen⟩ i⟩

/-- The registers an instruction leaves are its effect on those before it, also for a first RST. -/
theorem exec_next_regs {i : Instr} {s t : State} (h : exec i s = .next t) :
    t.regs = effect s.cfg i s.regs := by
  obtain ⟨_, _, rfl, -, rfl⟩ | ⟨rfl, -, rfl⟩ | ⟨_, _, rfl, -, rfl⟩ | ⟨rfl, -, rfl⟩ |
    ⟨_, _, rfl, -, rfl⟩ | ⟨rfl, -, rfl⟩ := exec_next h <;> rfl

/-- What is still to be presented plays no part in an instruction. -/
theorem exec_with_input {i : Instr} {s t : State} (h : exec i s = .next t) (rest : List Input) :
    exec i { s with input := rest } = .next { t with input := rest } := by
  obtain ⟨_, _, rfl, hvalid, ht⟩ | ⟨rfl, hready, ht⟩ | ⟨_, _, rfl, hready, ht⟩ | ⟨rfl, hready, ht⟩ |
    ⟨_, _, rfl, hready, ht⟩ | ⟨rfl, hready, ht⟩ := exec_next h <;> rw [ht]
  · exact whenBuilt_valid hvalid _
  all_goals exact exec_ready (s := { s with input := rest }) hready _

/-- A stream whose first instruction completes goes on as the rest of it from the state that left. -/
theorem runAll_cons_of_next {i : Instr} {s t : State} (h : exec i { s with input := [] } = .next t)
    (is : List Instr) : runAll s (i :: is) = runAll t is := by
  have hstep : step (s.presenting (i :: is)) = .next (t.presenting is) :=
    calc step (s.presenting (i :: is))
        = exec (decode (encode i)) { s with input := is.map encode } := step_of_cons rfl
      _ = exec i { s with input := is.map encode } := by rw [decode_encode]
      _ = .next (t.presenting is) := exec_with_input h _
  exact core_run_next hstep is.length

/-! ## The output format (R51, R123) -/

/-- No rule that writes a register looks at how RATE is encoded or laid out. -/
theorem effect_with_format (c : Config) (enc : RateEncoding) (order : ByteOrder) (i : Instr) (r : Regs) :
    effect { c with rateEnc := enc, rateByteOrder := order } i r = effect c i r := by
  cases i with
  | rst a b => rfl
  | idle => rfl
  | edge a b => rfl
  | ovf => rfl
  | edgeOvf a b => rfl
  | hrd => rfl

theorem ind_eq_of_regs_eq {s t : State} (h : s.regs = t.regs) : s.ind = t.ind := by
  rw [State.ind, State.ind, h]

/-! ## The bytes of RATE on a bus (R51) -/

theorem rateByte_toNat (w : RateWord) (i : Nat) : (rateByte w i).toNat = w.toNat / 256 ^ i % 256 := by
  rw [rateByte, BitVec.extractLsb'_toNat, Nat.shiftRight_eq_div_pow, Nat.pow_mul]

/-- The low `n` bytes of RATE, least significant first, below the digits of `a`. -/
theorem foldr_rateBytes (w : RateWord) (n a : Nat) :
    ((List.range n).map (rateByte w)).foldr (fun b acc => b.toNat + 256 * acc) a =
      w.toNat % 256 ^ n + 256 ^ n * a := by
  induction n generalizing a with
  | zero => simp [Nat.mod_one]
  | succ n ih =>
    rw [List.range_succ, List.map_append, List.foldr_append, ih, Nat.mod_pow_succ]
    simp only [List.map_cons, List.map_nil, List.foldr_cons, List.foldr_nil, rateByte_toNat]
    ring

theorem foldr_rateBytes_eight (w : RateWord) :
    ((List.range 8).map (rateByte w)).foldr (fun b acc => b.toNat + 256 * acc) 0 = w.toNat := by
  have hlt : w.toNat < 256 ^ 8 := w.isLt
  rw [foldr_rateBytes, Nat.mod_eq_of_lt hlt, Nat.mul_zero, Nat.add_zero]

theorem rateBusBytes_of_little {c : Config} (h : c.rateByteOrder = .little) (w : RateWord) :
    rateBusBytes c w = (List.range 8).map (rateByte w) := by
  rw [rateBusBytes, h]

theorem rateBusBytes_of_big {c : Config} (h : c.rateByteOrder = .big) (w : RateWord) :
    rateBusBytes c w = ((List.range 8).map (rateByte w)).reverse := by
  rw [rateBusBytes, h]

theorem rateBusBytes_length (c : Config) (w : RateWord) : (rateBusBytes c w).length = 8 := by
  cases h : c.rateByteOrder with
  | little => rw [rateBusBytes_of_little h, List.length_map, List.length_range]
  | big => rw [rateBusBytes_of_big h, List.length_reverse, List.length_map, List.length_range]

end Sys2Proof.Machine

open Sys2Proof Sys2Proof.Machine

/-- Settles O14: an instruction that completes leaves a block in use, from which HRD completes. -/
theorem hostReadSeesTheLastEvent : Obligations.HostReadSeesTheLastEvent := by
  intro s u i h
  have hready : u.Ready := exec_next_ready h
  have hinput : [] = u.input := (exec_keeps_input h).symm
  calc runAll s [i, .hrd]
      = runAll u [.hrd] := runAll_cons_of_next h _
    _ = runAll { u with input := [], hostRead := some u.outputs } [] :=
      runAll_cons_of_next (exec_ready (s := { u with input := [] }) hready .hrd) _
    _ = .next { u with input := [], hostRead := some u.outputs } := runAll_nil _
    _ = .next { u with hostRead := some ⟨u.rate, u.ind⟩ } := by rw [hinput, State.outputs]

/-- Settles O42: neither whether an instruction completes nor its effect on the registers depends on the
format, and IND is read off the registers. -/
theorem outputFormatNeverReachesARegister : Obligations.OutputFormatNeverReachesARegister := by
  intro s t i enc order h
  have hcompletes : s.cfg.Valid ∧ (isRst i = true ∨ s.rstSeen = true) := exec_completes_iff.mp ⟨t, h⟩
  obtain ⟨u, hu⟩ := exec_completes_iff
    (s := { s with cfg := { s.cfg with rateEnc := enc, rateByteOrder := order } }).mpr hcompletes
  have hregs : u.regs = t.regs := by
    rw [exec_next_regs hu, exec_next_regs h]
    exact effect_with_format s.cfg enc order i s.regs
  exact ⟨u, hu, hregs, ind_eq_of_regs_eq hregs⟩

/-- Settles O12: the step taken with something presented. -/
theorem stepRunsTheDecodedInput : Obligations.StepRunsTheDecodedInput :=
  fun _ _ _ => step_of_cons

/-- Settles O30: the little-endian bytes are the base-256 digits of the word, and the big-endian ones are
these reversed. -/
theorem rateBusBytesCarryTheWord : Obligations.RateBusBytesCarryTheWord := by
  intro c w
  refine ⟨rateBusBytes_length c w, fun h => ?_, fun h => ?_⟩
  · rw [rateBusBytes_of_little h, foldr_rateBytes_eight]
  · rw [rateBusBytes_of_big h, List.foldl_reverse, foldr_rateBytes_eight]

end

section

namespace Sys2Proof

/-! ## The event decoder (R67 to R69) -/

/-- All an event word can decode to, by the three bits that name the event. -/
theorem decodeEvent_cases (w : EventWord) :
    (w[4] = true ∧ decodeEvent w = .rst w[1] w[0]) ∨
    (w[4] = false ∧ w[3] = false ∧ w[2] = false ∧ decodeEvent w = .idle) ∨
    (w[4] = false ∧ w[3] = false ∧ w[2] = true ∧ decodeEvent w = .edge w[1] w[0]) ∨
    (w[4] = false ∧ w[3] = true ∧ w[2] = false ∧ decodeEvent w = .ovf) ∨
    (w[4] = false ∧ w[3] = true ∧ w[2] = true ∧ decodeEvent w = .edgeOvf w[1] w[0]) := by
  unfold decodeEvent
  cases w[4] with
  | true => exact .inl ⟨rfl, rfl⟩
  | false => cases w[3] <;> cases w[2] <;> simp

/-- The table of R67, RST over every other bit. -/
theorem decodeEvent_eq_table (w : EventWord) :
    decodeEvent w =
      if w[4] then .rst w[1] w[0]
      else if w[3] then (if w[2] then .edgeOvf w[1] w[0] else .ovf)
      else (if w[2] then .edge w[1] w[0] else .idle) := by
  obtain ⟨h4, hd⟩ | ⟨h4, h3, h2, hd⟩ | ⟨h4, h3, h2, hd⟩ | ⟨h4, h3, h2, hd⟩ | ⟨h4, h3, h2, hd⟩ :=
    decodeEvent_cases w <;> simp [*]

/-- The events with operands take them from the two low bits of the word. -/
theorem operands_of_decodeEvent {w : EventWord} {a b : Bool}
    (h : decodeEvent w = .rst a b ∨ decodeEvent w = .edge a b ∨ decodeEvent w = .edgeOvf a b) :
    a = w[1] ∧ b = w[0] := by
  obtain ⟨-, hd⟩ | ⟨-, -, -, hd⟩ | ⟨-, -, -, hd⟩ | ⟨-, -, -, hd⟩ | ⟨-, -, -, hd⟩ :=
    decodeEvent_cases w <;> rw [hd] at h <;> simp_all

/-! ## The rows of the opcode table (R67, R69) -/

/-- A row claims the words that decode to an event of its mnemonic, and no others. -/
theorem claims_iff_mnemonic {r : OpcodeRow} (hr : r ∈ opcodeRows) (w : EventWord) :
    r.claims w = true ↔ (decodeEvent w).mnemonic = r.mnemonic := by
  revert r w
  decide

theorem exists_opcodeRow (w : EventWord) : ∃ r ∈ opcodeRows, (decodeEvent w).mnemonic = r.mnemonic := by
  obtain ⟨-, hd⟩ | ⟨-, -, -, hd⟩ | ⟨-, -, -, hd⟩ | ⟨-, -, -, hd⟩ | ⟨-, -, -, hd⟩ :=
    decodeEvent_cases w <;> rw [hd] <;> simp [opcodeRows, Instr.mnemonic]

theorem nodup_opcodeRows_mnemonic : (opcodeRows.map OpcodeRow.mnemonic).Nodup := by decide

/-! ## Care bits and encoding (R68, R72) -/

/-- Words equal under a mask have the same bit wherever the mask has one. -/
theorem bit_eq_of_and_eq {n : Nat} {w w' m : BitVec n} (h : w &&& m = w' &&& m) (i : Nat)
    (hi : i < n := by decide) (hm : m[i] = true := by decide) : w[i] = w'[i] := by
  have hbit : (w &&& m)[i] = (w' &&& m)[i] := by rw [h]
  simpa [hm] using hbit

/-- The bits an event does not read do not reach its decoding. -/
theorem decodeEvent_eq_of_careBits {w w' : EventWord}
    (h : w &&& (decodeEvent w).careBits = w' &&& (decodeEvent w).careBits) :
    decodeEvent w = decodeEvent w' := by
  obtain ⟨h4, hd⟩ | ⟨h4, h3, h2, hd⟩ | ⟨h4, h3, h2, hd⟩ | ⟨h4, h3, h2, hd⟩ | ⟨h4, h3, h2, hd⟩ :=
    decodeEvent_cases w
  all_goals
    rw [hd, Instr.careBits] at h
    rw [hd, decodeEvent_eq_table w', ← bit_eq_of_and_eq h 4]
  · simp [h4, bit_eq_of_and_eq h 1, bit_eq_of_and_eq h 0]
  · simp [h4, h3, h2, ← bit_eq_of_and_eq h 3, ← bit_eq_of_and_eq h 2]
  · simp [h4, h3, h2, ← bit_eq_of_and_eq h 3, ← bit_eq_of_and_eq h 2,
      ← bit_eq_of_and_eq h 1, ← bit_eq_of_and_eq h 0]
  · simp [h4, h3, h2, ← bit_eq_of_and_eq h 3, ← bit_eq_of_and_eq h 2]
  · simp [h4, h3, h2, ← bit_eq_of_and_eq h 3, ← bit_eq_of_and_eq h 2,
      ← bit_eq_of_and_eq h 1, ← bit_eq_of_and_eq h 0]

/-- Encoding what a word decodes to keeps the bits that event reads and writes the others 0. -/
theorem encode_decodeEvent (w : EventWord) :
    encode (decodeEvent w) = .event (w &&& (decodeEvent w).careBits) := by
  revert w
  decide

/-- The words of an instruction are those that agree with its encoding on the bits it reads. -/
theorem decode_event_eq_iff {w : EventWord} {i : Instr} :
    decode (.event w) = i ↔ ∃ e, encode i = .event e ∧ w &&& i.careBits = e &&& i.careBits := by
  constructor
  · rintro rfl
    refine ⟨_, encode_decodeEvent w, ?_⟩
    rw [decode, BitVec.and_assoc, BitVec.and_self]
  · rintro ⟨e, he, hagree⟩
    have hdecode : decodeEvent e = i :=
      calc decodeEvent e = decode (encode i) := by rw [he]; rfl
        _ = i := Machine.decode_encode i
    rw [← hdecode] at hagree ⊢
    exact (decodeEvent_eq_of_careBits hagree.symm).symm

end Sys2Proof

namespace Sys2Proof.Machine

variable {c : Config} {r : Regs}

/-! ## Operands and codes (R61 to R65) -/

theorem pairCode_toNat (a b : Bool) : (pairCode a b).toNat = 2 * a.toNat + b.toNat := by
  revert a b
  decide

theorem pairCode_eq_extractLsb' (w : EventWord) : pairCode w[1] w[0] = w.extractLsb' 0 2 := by
  revert w
  decide

theorem tableIndex_toNat (p n : StateCode) : (tableIndex p n).toNat = p.toNat * 4 + n.toNat := by
  rw [tableIndex, BitVec.toNat_append, ← Nat.shiftLeft_add_eq_or_of_lt n.isLt, Nat.shiftLeft_eq]

theorem decisionCode_ne_sentinel (d : Decision) : decisionCode d ≠ classificationCode .sentinel := by
  cases d <;> decide

theorem directionCode_ne_sentinel (d : Direction) : directionCode d ≠ classificationCode .sentinel := by
  cases d <;> decide

/-- Each direction has its own bit of the indicator, and no other bit is set. -/
theorem oneHot_bits (d : Direction) :
    ((oneHot d)[0] = true ↔ d = .cw) ∧ ((oneHot d)[1] = true ↔ d = .ccw) ∧
      ((oneHot d)[2] = true ↔ d = .none) := by
  cases d <;> decide

theorem oneHot_cases (d : Direction) : oneHot d = 0b001 ∨ oneHot d = 0b010 ∨ oneHot d = 0b100 := by
  cases d <;> decide

/-! ## EDGE_OVF as two events (R67) -/

/-- A built block that waits for its first RST faults on everything else. -/
theorem exec_before_rst {s : State} {i : Instr} (hc : s.cfg.Valid) (hs : s.rstSeen = false)
    (hi : isRst i = false) : exec i s = .fault .noValueBeforeReset := by
  have hguard (k) : whenReset s k = .fault .noValueBeforeReset :=
    (whenReset_before_rst hs k).trans (whenBuilt_valid hc _)
  cases i with
  | rst a b => cases hi
  | idle => exact hguard _
  | edge a b => exact hguard _
  | ovf => exact hguard _
  | edgeOvf a b => exact hguard _
  | hrd => exact hguard _

/-! ## Streams of one event (R73, R120 to R122) -/

/-- A stream without a host read changes nothing but the registers and what is presented. -/
theorem runAll_without_read {s : State} {is : List Instr} (h : s.Ready) (hn : .hrd ∉ is) :
    runAll s is = .next { s with input := [], regs := effects s.cfg is s.regs } := by
  obtain ⟨hr, hrun, hread⟩ := runAll_ready is h
  rw [hrun, hread hn]

theorem effects_replicate_idle (c : Config) (k : Nat) (r : Regs) :
    effects c (List.replicate k .idle) r = r := by
  induction k with
  | zero => rfl
  | succ k ih => exact ih

/-- Overflows short of the boundary count down, and no more. -/
theorem effects_replicate_ovf {k : Nat} (hk : k < r.ovfCnt) (hn : r.ovfCnt ≤ c.nOvf) :
    effects c (List.replicate k .ovf) r = { r with ovfCnt := r.ovfCnt - k } := by
  induction k with
  | zero => rfl
  | succ k ih =>
    rw [List.replicate_succ', effects_append, ih (by omega)]
    exact ovfRegs_of_more (by dsimp only; omega) (by dsimp only; omega)

/-- A sample in every mode: the rate from the counter the mode uses, which goes back to 0. -/
theorem sampleRegs_eq (c : Config) (r : Regs) : sampleRegs c r = { r with
    rateQ := (if c.mode = .pulse then (r.pcnt : Rat) else ((|r.acc| : Int) : Rat)) / ((c.cpr : Rat) * c.t)
    acc := if c.mode = .pulse then r.acc else 0
    pcnt := if c.mode = .pulse then 0 else r.pcnt } := by
  by_cases hm : c.mode = .pulse
  · simp [sampleRegs_pcnt hm, rateOf, hm]
  · simp [sampleRegs_acc hm, rateOf, hm]

/-- A whole sample period of overflows takes one sample, of the count before the first of them, and
reloads the counter. -/
theorem effects_replicate_ovf_period (h1 : 1 ≤ r.ovfCnt) (hn : r.ovfCnt ≤ c.nOvf) :
    effects c (List.replicate r.ovfCnt .ovf) r = { sampleRegs c r with ovfCnt := c.nOvf } := by
  obtain ⟨k, hk⟩ : ∃ k, r.ovfCnt = k + 1 := ⟨r.ovfCnt - 1, by omega⟩
  have hlast : r.ovfCnt - k = 1 := by omega
  calc effects c (List.replicate r.ovfCnt .ovf) r
      = effects c [.ovf] (effects c (List.replicate k .ovf) r) := by
        rw [← effects_append, ← List.replicate_succ', ← hk]
    _ = ovfRegs c { r with ovfCnt := 1 } := by rw [effects_replicate_ovf (by omega) hn, hlast]; rfl
    _ = { sampleRegs c { r with ovfCnt := 1 } with ovfCnt := c.nOvf } :=
        ovfRegs_of_last rfl (h1.trans hn)
    _ = { sampleRegs c r with ovfCnt := c.nOvf } := by rw [sampleRegs_eq, sampleRegs_eq]

end Sys2Proof.Machine

open Sys2Proof Sys2Proof.Machine

/-- Settles O31: HOLD is a stream of IDLEs, and SAMPLE a whole sample period of overflows. -/
theorem pseudoInstructionsRun : Obligations.PseudoInstructionsRun := by
  refine ⟨fun r p => ⟨rfl, rfl, pairCode_bits p⟩, fun s k hs => ⟨rfl, ?_⟩, fun s hs h1 hn => ⟨rfl, ?_⟩⟩
  · have hread : Instr.hrd ∉ List.replicate k Instr.idle := by simp
    rw [expand, runAll_without_read hs hread, effects_replicate_idle]
  · have hread : Instr.hrd ∉ List.replicate s.regs.ovfCnt Instr.ovf := by simp
    rw [expand, runAll_without_read hs hread, effects_replicate_ovf_period h1 hn, sampleRegs_eq]

/-- Settles O1, by evaluating the decoder on the seven inputs. -/
theorem wordsOfTheVectorsDecode : Obligations.WordsOfTheVectorsDecode :=
  ⟨rfl, rfl, rfl, rfl, rfl, rfl, rfl⟩

/-- Settles O2: from a block in use both sides have the effect of EDGE and then of OVF, and elsewhere
both stop at the same guard. -/
theorem decodeFollowsTheEventTable : Obligations.DecodeFollowsTheEventTable := by
  refine ⟨decodeEvent_eq_table, fun s a b => ?_⟩
  by_cases hc : s.cfg.Valid
  · cases hs : s.rstSeen with
    | true =>
      have hready : s.Ready := ⟨hc, hs⟩
      rw [exec_ready hready (.edge a b), exec_ready hready (.edgeOvf a b)]
      exact (exec_ready (s := { s with regs := edgeRegs s.cfg (pairCode a b) s.regs }) hready .ovf).symm
    | false => rw [exec_before_rst hc hs rfl, exec_before_rst hc hs rfl]
  · rw [exec_invalid hc, exec_invalid hc]

/-- Settles O3: a word's row is the one with the mnemonic of its event, and no two rows share one. -/
theorem everyWordHasOneOpcodeRow : Obligations.EveryWordHasOneOpcodeRow := by
  intro w
  obtain ⟨r, hr, hmnemonic⟩ := exists_opcodeRow w
  refine ⟨r, hr, (claims_iff_mnemonic hr w).mpr hmnemonic, hmnemonic, fun r' hr' hclaims => ?_⟩
  have hsame : r'.mnemonic = r.mnemonic := ((claims_iff_mnemonic hr' w).mp hclaims).symm.trans hmnemonic
  exact List.inj_on_of_nodup_map nodup_opcodeRows_mnemonic hr' hr hsame

/-- Settles O4, with the characterisation of the words of an instruction. -/
theorem decodeAndEncodeAgree : Obligations.DecodeAndEncodeAgree :=
  ⟨decode_encode, fun _ _ => decode_event_eq_iff⟩

/-- Settles O5: a step reads its word only by decoding it, and decoding reads only the care bits. -/
theorem dontCareBitsDoNotMatter : Obligations.DontCareBitsDoNotMatter := by
  refine ⟨fun s rest w w' h => ?_, fun w a b => operands_of_decodeEvent,
    fun a b => ⟨rfl, rfl, rfl⟩, rfl, rfl, pairCode_eq_extractLsb'⟩
  have hdecode : decode (.event w) = decode (.event w') := decodeEvent_eq_of_careBits h
  rw [step_of_cons rfl, step_of_cons rfl, hdecode]

/-- Settles O6: the codes are concatenations, read as numbers and taken apart again. -/
theorem stateCodeAndTableIndex : Obligations.StateCodeAndTableIndex :=
  ⟨pairCode_toNat, fun p n => ⟨tableIndex_toNat p n, BitVec.extractLsb'_append_eq_left,
    BitVec.extractLsb'_append_eq_right⟩⟩

/-- Settles O7: no decision and no direction has the sentinel's code. -/
theorem valueCodesAreAsListed : Obligations.ValueCodesAreAsListed :=
  ⟨rfl, rfl, rfl, rfl, rfl, rfl, rfl, fun s =>
    ⟨rfl, decisionCode_ne_sentinel s.regs.oldRot, directionCode_ne_sentinel s.regs.dir⟩⟩

/-- Settles O28: IND is the pattern of DIR, whatever DIR is. -/
theorem indicatorIsOneHot : Obligations.IndicatorIsOneHot := by
  intro s
  obtain ⟨hcw, hccw, hnone⟩ := oneHot_bits s.regs.dir
  exact ⟨hcw, hccw, hnone, oneHot_cases s.regs.dir⟩

end

section

namespace Sys2Proof.Machine

/-! ## The classifier (R80 to R84) -/

variable {p n : StateCode}

/-- The pair to which a classification leads from `p`: one turn of the shaft, or the diagonal (R83 (c), (e)). -/
def destination : Classification → StateCode → StateCode
  | .decided d, p => turn d p
  | .sentinel, p => p ^^^ 3

/-- The classification of the reverse transition (R83 (b)). -/
def reversed : Classification → Classification
  | .decided d => .decided (opposite d)
  | .sentinel => .sentinel

/-- R81 as the table is read: every index has an entry. -/
theorem getElem?_tableIndex (p n : StateCode) :
    classifierTable[(tableIndex p n).toNat]? = some (classify p n) :=
  Vector.getElem?_eq_getElem (tableIndex p n).isLt

/-- The whole table in one rule: a row takes each classification at its destination and nowhere else. -/
theorem classify_eq_iff {c : Classification} : classify p n = c ↔ n = destination c p := by
  cases c with
  | sentinel => revert p n; decide
  | decided d => cases d <;> revert p n <;> decide

theorem classify_swap (p n : StateCode) : classify n p = reversed (classify p n) := by
  revert p n
  decide

theorem reversed_reversed (c : Classification) : reversed (reversed c) = c := by
  cases c with
  | sentinel => rfl
  | decided d => cases d <;> rfl

theorem classificationValue_injective : Function.Injective classificationValue := by
  intro c c' h
  rcases c with (_ | _ | _) | _ <;> rcases c' with (_ | _ | _) | _ <;> cases h <;> rfl

/-- Every value of R13 is the value of a classification. -/
theorem exists_classificationValue_eq {v : Int} (h : v ∈ [0, 1, -1, 2]) :
    ∃ c, classificationValue c = v := by
  simp only [List.mem_cons, List.not_mem_nil, or_false] at h
  obtain rfl | rfl | rfl | rfl := h
  · exact ⟨.decided .noRot, rfl⟩
  · exact ⟨.decided .cw, rfl⟩
  · exact ⟨.decided .ccw, rfl⟩
  · exact ⟨.sentinel, rfl⟩

theorem classify_swap_eq_iff {c : Classification} : classify n p = c ↔ classify p n = reversed c := by
  constructor <;> intro h
  · rw [classify_swap n p, h]
  · rw [classify_swap p n, h, reversed_reversed]

theorem existsUnique_classify_row (p : StateCode) (c : Classification) : ∃! n, classify p n = c :=
  ⟨destination c p, classify_eq_iff.mpr rfl, fun _ h => classify_eq_iff.mp h⟩

/-- A column is the reversed row. -/
theorem existsUnique_classify_column (p : StateCode) (c : Classification) : ∃! n, classify n p = c := by
  obtain ⟨n, hn, huniq⟩ := existsUnique_classify_row p (reversed c)
  exact ⟨n, classify_swap_eq_iff.mpr hn, fun m hm => huniq m (classify_swap_eq_iff.mp hm)⟩

/-- A pair that differs in one bit is one turn of the shaft away. -/
theorem eq_turn_of_one_bit (h : p ^^^ n = 1 ∨ p ^^^ n = 2) : n = turn .cw p ∨ n = turn .ccw p := by
  revert p n
  decide

/-- A turn and the turn back have opposite values. -/
theorem classificationValue_turn {d : Decision} (h : n = turn d p) :
    classificationValue (classify p n) = decisionValue d ∧
      classificationValue (classify n p) = -decisionValue d := by
  have hforth : classify p n = .decided d := classify_eq_iff.mpr h
  rw [classify_swap p n, hforth]
  cases d <;> exact ⟨rfl, rfl⟩

end Sys2Proof.Machine

open Sys2Proof Sys2Proof.Machine

/-- Settles O8: the entries by evaluation, and the index `P*4 + N` as the code `{P, N}` of R62. -/
theorem classifierTableEntries : Obligations.ClassifierTableEntries := by
  refine ⟨by decide, fun p n => ?_⟩
  rw [← tableIndex_toNat, getElem?_tableIndex]

/-- Settles O9: a row takes each classification at one destination, and a column is the reversed row. -/
theorem classifierTableProperties : Obligations.ClassifierTableProperties := by
  refine ⟨fun p => ?_, fun p n hbit => ?_, fun p n => ?_, fun p v hv => ?_, ?_, ?_⟩
  · exact (classificationValue_turn (d := .noRot) rfl).1
  · obtain hturn | hturn := eq_turn_of_one_bit hbit <;>
      obtain ⟨hforth, hback⟩ := classificationValue_turn hturn <;> rw [hforth, hback]
    · exact ⟨rfl, .inl rfl⟩
    · exact ⟨rfl, .inr rfl⟩
  · exact (classificationValue_injective.eq_iff (b := .sentinel)).trans classify_eq_iff
  · obtain ⟨c, rfl⟩ := exists_classificationValue_eq hv
    simp only [classificationValue_injective.eq_iff]
    exact ⟨existsUnique_classify_row p c, existsUnique_classify_column p c⟩
  · exact ⟨rfl, rfl, rfl, rfl⟩
  · exact ⟨rfl, rfl, rfl, rfl⟩

end

section

namespace Sys2Proof.Machine

variable {c : Config} {n : StateCode} {r : Regs}

/-! ## The EDGE event by mode (R90, R95, R100, R105, R106) -/

theorem edgeRegs_of_vote (h : c.mode = .vote) : edgeRegs c n r = edgeVote c n r := by rw [edgeRegs, h]

theorem edgeRegs_of_direct (h : c.mode = .direct) : edgeRegs c n r = edgeDirect c n r := by
  rw [edgeRegs, h]

theorem edgeRegs_of_pulse (h : c.mode = .pulse) : edgeRegs c n r = edgePulse c n r := by rw [edgeRegs, h]

theorem exec_edge_ready {s : State} (h : s.Ready) (a b : Bool) :
    exec (.edge a b) s = .next { s with regs := edgeRegs s.cfg (pairCode a b) s.regs } :=
  onRegs_ready h _

/-- What the verdict of full tallies does to the accumulator, with the comparison of R93 written out. -/
theorem creditWindow_majority_acc (tcw tccw : Nat) :
    (creditWindow c (majority tcw tccw) r).acc =
      if tcw > tccw then wrapS c.accW (r.acc - c.ep)
      else if tccw > tcw then wrapS c.accW (r.acc + c.ep) else r.acc := by
  unfold majority
  split
  · rfl
  · split <;> rfl

/-- A VOTE edge never writes PCNT, RATE_Q or OVF_CNT, from any state (R106). -/
theorem edgeVote_frame : edgeVote c n r = { r with
    state := (acceptPair n r).state
    oldRot := takeDecision n r
    tcw := (edgeVote c n r).tcw
    tccw := (edgeVote c n r).tccw
    dir := (edgeVote c n r).dir
    acc := (edgeVote c n r).acc } := by
  dsimp only [edgeVote]
  rw [resolveWindow_frame, tally_frame, acceptPair_eq]
  rfl

/-- While one more vote cannot fill the window, a VOTE edge writes neither DIR nor ACC (R106). -/
theorem edgeVote_dir_acc_of_short (h : r.tcw + r.tccw + 1 < c.ep) :
    (edgeVote c n r).dir = r.dir ∧ (edgeVote c n r).acc = r.acc := by
  have hsum := tallied_sum (n := n) (r := r)
  have hshort : talliedCw n r + talliedCcw n r ≠ c.ep := by
    split at hsum <;> omega
  rw [edgeVote_of_short (by omega) hshort]
  exact ⟨rfl, rfl⟩

/-- A DIRECT edge writes at most STATE, OLD_ROT, DIR and ACC (R106). -/
theorem edgeDirect_frame : edgeDirect c n r = { r with
    state := (edgeDirect c n r).state
    oldRot := (edgeDirect c n r).oldRot
    dir := (edgeDirect c n r).dir
    acc := (edgeDirect c n r).acc } := by
  cases h : classify r.state n with
  | sentinel => rw [edgeDirect_of_sentinel h]
  | decided d => rw [edgeDirect_of_decided h]

theorem edgeRegs_rateQ_ovfCnt :
    (edgeRegs c n r).rateQ = r.rateQ ∧ (edgeRegs c n r).ovfCnt = r.ovfCnt := by
  unfold edgeRegs
  split
  · rw [edgeVote_frame]; exact ⟨rfl, rfl⟩
  · rw [edgeDirect_frame]; exact ⟨rfl, rfl⟩
  · rw [edgePulse_eq]; exact ⟨rfl, rfl⟩

theorem edgeRegs_pcnt (h : c.mode ≠ .pulse) : (edgeRegs c n r).pcnt = r.pcnt := by
  unfold edgeRegs
  split
  · rw [edgeVote_frame]
  · rw [edgeDirect_frame]
  · exact absurd ‹_› h

theorem edgeRegs_tallies (h : c.mode ≠ .vote) :
    (edgeRegs c n r).tcw = r.tcw ∧ (edgeRegs c n r).tccw = r.tccw := by
  unfold edgeRegs
  split
  · exact absurd ‹_› h
  · rw [edgeDirect_frame]; exact ⟨rfl, rfl⟩
  · rw [edgePulse_eq]; exact ⟨rfl, rfl⟩

/-- Outside PULSE a sentinel leaves the last accepted pair and the last trusted decision (R96, R100). -/
theorem edgeRegs_state_oldRot_of_sentinel (hm : c.mode ≠ .pulse) (h : classify r.state n = .sentinel) :
    (edgeRegs c n r).state = r.state ∧ (edgeRegs c n r).oldRot = r.oldRot := by
  unfold edgeRegs
  split
  · rw [edgeVote_frame, acceptPair_of_sentinel h, takeDecision_of_sentinel h]
    exact ⟨rfl, rfl⟩
  · rw [edgeDirect_of_sentinel h]
    exact ⟨rfl, rfl⟩
  · exact absurd ‹_› hm

/-- One more pulse, as R11 wraps it. -/
theorem wrapU_succ (w k : Nat) : wrapU w ((k : Int) + 1) = (k + 1) % 2 ^ w := by
  have h := wrapU_eq_emod w ((k : Int) + 1)
  exact_mod_cast h

/-- The three kinds of edge that count, by PULSE_EDGE (R105). -/
theorem isPulse_iff {e : PulseEdge} {aPrev a : Bool} : isPulse e aPrev a = true ↔
    (e = .rising ∧ aPrev = false ∧ a = true) ∨ (e = .falling ∧ aPrev = true ∧ a = false) ∨
      (e = .both ∧ aPrev ≠ a) := by
  cases e <;> simp [isPulse]

theorem channelA_pairCode (a b : Bool) : channelA (pairCode a b) = a := by
  revert a b
  decide

end Sys2Proof.Machine

open Sys2Proof Sys2Proof.Machine

/-- Settles O18: the tallies with the decision counted in either fill the window or leave it short. -/
theorem edgeInVoteMode : Obligations.EdgeInVoteMode := by
  intro s a b hs hm ht n cl d tcw tccw
  rw [exec_edge_ready hs, edgeRegs_of_vote hm]
  by_cases hfull : tcw + tccw = s.cfg.ep
  · rw [edgeVote_of_full ht hfull, creditWindow_majority_acc, acceptPair_state]
    simp only [if_pos hfull]
    rfl
  · rw [edgeVote_of_short ht hfull, acceptPair_state]
    simp only [if_neg hfull]
    rfl

/-- Settles O19: the classification is the sentinel or a decision. -/
theorem edgeInDirectMode : Obligations.EdgeInDirectMode := by
  intro s a b hs hm after
  have hafter : after = edgeDirect s.cfg (pairCode a b) s.regs := by
    unfold after
    cases h : classify s.regs.state (pairCode a b) with
    | sentinel => rw [edgeDirect_of_sentinel h]
    | decided d => rw [edgeDirect_of_decided h]; cases d <;> rfl
  rw [exec_edge_ready hs, edgeRegs_of_direct hm, hafter]

/-- Settles O20: the raw pair is written, and the classifier plays no part. -/
theorem edgeInPulseMode : Obligations.EdgeInPulseMode := by
  intro s a b hs hm aPrev pulse
  have hpulse : isPulse s.cfg.pulseEdge (channelA s.regs.state) a = true ↔ pulse := isPulse_iff
  rw [exec_edge_ready hs, edgeRegs_of_pulse hm, edgePulse_eq, channelA_pairCode, wrapU_succ]
  simp only [hpulse]

/-- Settles O21, from what each form of the event leaves alone. -/
theorem edgeFrameByMode : Obligations.EdgeFrameByMode := by
  intro s t a b h
  obtain ⟨-, rfl⟩ := onRegs_next (h : execEdge a b s = .next t)
  obtain ⟨hrate, hovf⟩ := edgeRegs_rateQ_ovfCnt (c := s.cfg) (n := pairCode a b) (r := s.regs)
  refine ⟨rfl, rfl, rfl, rfl, hrate, hovf, edgeRegs_pcnt, edgeRegs_tallies, fun hm => ?_,
    edgeRegs_state_oldRot_of_sentinel, fun hm hsent => ?_, fun hm hshort => ?_⟩
  · rw [edgeRegs_of_pulse hm, edgePulse_eq]
    exact ⟨rfl, rfl, rfl⟩
  · rw [edgeRegs_of_direct hm, edgeDirect_of_sentinel hsent]
  · rw [edgeRegs_of_vote hm]
    exact edgeVote_dir_acc_of_short hshort

end

section

namespace Sys2Proof.Machine

variable {c : Config} {r : Regs}

/-! ## Runs of EDGE events (R95, R100, R105) -/

/-- The EDGE events of a stream of pairs, oldest first. -/
def edges (c : Config) (ns : List StateCode) (r : Regs) : Regs := ns.foldl (fun r n => edgeRegs c n r) r

@[simp] theorem edges_nil (c : Config) (r : Regs) : edges c [] r = r := rfl

@[simp] theorem edges_cons (c : Config) (n : StateCode) (ns : List StateCode) (r : Regs) :
    edges c (n :: ns) r = edges c ns (edgeRegs c n r) := rfl

theorem edges_append (c : Config) (ns ms : List StateCode) (r : Regs) :
    edges c (ns ++ ms) r = edges c ms (edges c ns r) := List.foldl_append

theorem effects_map_edgeTo (c : Config) (ns : List StateCode) (r : Regs) :
    effects c (ns.map edgeTo) r = edges c ns r := by
  induction ns generalizing r with
  | nil => rfl
  | cons n ns ih => rw [List.map_cons, effects_cons, effect_edgeTo, ih, edges_cons]

/-- A stream of EDGE events runs to its end from a block in use. -/
theorem runAll_edges {s : State} (h : s.Ready) (ns : List StateCode) :
    runAll s (ns.map edgeTo) = .next { s with input := [], regs := edges s.cfg ns s.regs } := by
  have hread : Instr.hrd ∉ ns.map edgeTo := by simp [edgeTo]
  rw [runAll_without_read h hread, effects_map_edgeTo]

theorem edges_of_fixed {ns : List StateCode} (h : ∀ n ∈ ns, edgeRegs c n r = r) : edges c ns r = r := by
  induction ns with
  | nil => rfl
  | cons n ns ih =>
    rw [List.forall_mem_cons] at h
    rw [edges_cons, h.1, ih h.2]

theorem edges_inv (hc : c.Valid) (ns : List StateCode) (h : r.Inv c) : (edges c ns r).Inv c := by
  induction ns generalizing r with
  | nil => exact h
  | cons n ns ih => exact ih (edgeRegs_inv hc n h)

theorem edges_rateQ_ovfCnt (ns : List StateCode) :
    (edges c ns r).rateQ = r.rateQ ∧ (edges c ns r).ovfCnt = r.ovfCnt := by
  induction ns generalizing r with
  | nil => exact ⟨rfl, rfl⟩
  | cons n ns ih =>
    obtain ⟨hrate, hovf⟩ := edgeRegs_rateQ_ovfCnt (c := c) (n := n) (r := r)
    rw [edges_cons, ← hrate, ← hovf]
    exact ih

/-! ## EDGE does not look at the overflow counter -/

theorem tally_with_ovfCnt (d : Decision) (k : Nat) :
    tally c d { r with ovfCnt := k } = { tally c d r with ovfCnt := k } := by
  cases d <;> rfl

theorem resolveWindow_with_ovfCnt (k : Nat) :
    resolveWindow c { r with ovfCnt := k } = { resolveWindow c r with ovfCnt := k } := by
  by_cases h : r.tcw + r.tccw = c.ep
  · rw [resolveWindow_of_full h, resolveWindow_of_full (by exact h), creditWindow_acc, creditWindow_acc]
  · rw [resolveWindow_of_short h, resolveWindow_of_short (by exact h)]

theorem edgeVote_with_ovfCnt (n : StateCode) (k : Nat) :
    edgeVote c n { r with ovfCnt := k } = { edgeVote c n r with ovfCnt := k } := by
  have haccept : acceptPair n { r with ovfCnt := k } = { acceptPair n r with ovfCnt := k } := by
    rw [acceptPair_eq, acceptPair_eq (r := r), acceptPair_state, acceptPair_state]
    rfl
  dsimp only [edgeVote]
  rw [haccept, tally_with_ovfCnt, resolveWindow_with_ovfCnt]
  rfl

theorem edgeDirect_with_ovfCnt (n : StateCode) (k : Nat) :
    edgeDirect c n { r with ovfCnt := k } = { edgeDirect c n r with ovfCnt := k } := by
  cases h : classify r.state n with
  | sentinel => rw [edgeDirect_of_sentinel h, edgeDirect_of_sentinel (by exact h)]
  | decided d => rw [edgeDirect_of_decided h, edgeDirect_of_decided (by exact h)]

theorem edgeRegs_with_ovfCnt (n : StateCode) (k : Nat) :
    edgeRegs c n { r with ovfCnt := k } = { edgeRegs c n r with ovfCnt := k } := by
  cases hm : c.mode with
  | vote => rw [edgeRegs_of_vote hm, edgeRegs_of_vote hm, edgeVote_with_ovfCnt]
  | direct => rw [edgeRegs_of_direct hm, edgeRegs_of_direct hm, edgeDirect_with_ovfCnt]
  | pulse => rw [edgeRegs_of_pulse hm, edgeRegs_of_pulse hm, edgePulse_eq, edgePulse_eq]

theorem edges_with_ovfCnt (ns : List StateCode) (k : Nat) :
    edges c ns { r with ovfCnt := k } = { edges c ns r with ovfCnt := k } := by
  induction ns generalizing r with
  | nil => rfl
  | cons n ns ih => rw [edges_cons, edges_cons, edgeRegs_with_ovfCnt, ih]

/-! ## A stream within a sample period is its edges (R120) -/

/-- The overflows of a single instruction. -/
theorem countP_isOverflow_cons (i : Instr) (is : List Instr) :
    (i :: is).countP isOverflow = (isOverflow i).toNat + is.countP isOverflow := by
  rw [List.countP_cons, Nat.add_comm]
  cases isOverflow i <;> rfl

theorem pairsOf_append (is js : List Instr) : pairsOf (is ++ js) = pairsOf is ++ pairsOf js :=
  List.filterMap_append

/-- Short of the sample boundary an instruction other than RST does its edge, if it has one, and counts
its overflow, if it has one. -/
theorem effect_of_short {i : Instr} (hi : isRst i = false) (h : (isOverflow i).toNat < r.ovfCnt)
    (hn : r.ovfCnt ≤ c.nOvf) :
    effect c i r = { edges c (pairsOf [i]) r with ovfCnt := r.ovfCnt - (isOverflow i).toNat } := by
  cases i with
  | rst a b => cases hi
  | idle => rfl
  | edge a b => exact edges_with_ovfCnt [pairCode a b] r.ovfCnt
  | ovf => exact ovfRegs_of_more h hn
  | edgeOvf a b =>
    obtain ⟨-, hovf⟩ := edgeRegs_rateQ_ovfCnt (c := c) (n := pairCode a b) (r := r)
    rw [← hovf] at h hn ⊢
    exact ovfRegs_of_more h hn
  | hrd => rfl

/-- Within a sample period a stream does its edges and counts its overflows, and no more. -/
theorem effects_within_period {is : List Instr} (h : WithinPeriod r is) (hn : r.ovfCnt ≤ c.nOvf) :
    effects c is r = { edges c (pairsOf is) r with ovfCnt := r.ovfCnt - is.countP isOverflow } := by
  induction is generalizing r with
  | nil => rfl
  | cons i is ih =>
    obtain ⟨hrst, hcount⟩ := h
    rw [List.all_cons, Bool.and_eq_true, Bool.not_eq_true'] at hrst
    rw [countP_isOverflow_cons] at hcount ⊢
    rw [effects_cons, effect_of_short hrst.1 (by omega) hn,
      ih ⟨hrst.2, by dsimp only; omega⟩ (by dsimp only; omega), edges_with_ovfCnt, ← edges_append,
      ← pairsOf_append, Nat.sub_sub]
    rfl

/-- The overflow that completes a sample period takes the sample after its own edge, if it has one. -/
theorem effect_of_last {i : Instr} (hi : isOverflow i = true) (h : r.ovfCnt = 1) (hn : 1 ≤ c.nOvf) :
    effect c i r = { sampleRegs c (edges c (pairsOf [i]) r) with ovfCnt := c.nOvf } := by
  cases i with
  | ovf => exact ovfRegs_of_last h (by omega)
  | edgeOvf a b =>
    obtain ⟨-, hovf⟩ := edgeRegs_rateQ_ovfCnt (c := c) (n := pairCode a b) (r := r)
    exact ovfRegs_of_last (by omega) (by omega)
  | rst _ _ | idle | edge _ _ | hrd => cases hi

/-- The sample does not look at the overflow counter. -/
theorem sampleRegs_with_ovfCnt (k : Nat) :
    sampleRegs c { r with ovfCnt := k } = { sampleRegs c r with ovfCnt := k } := by
  rw [sampleRegs_eq, sampleRegs_eq]

/-- A stream that ends with the overflow completing its sample period does its edges, samples once and
reloads the counter. -/
theorem effects_of_period {is : List Instr} {last : Instr} (h : WithinPeriod r is)
    (hn : r.ovfCnt ≤ c.nOvf) (hcount : is.countP isOverflow + 1 = r.ovfCnt)
    (hlast : isOverflow last = true) :
    effects c (is ++ [last]) r =
      { sampleRegs c (edges c (pairsOf (is ++ [last])) r) with ovfCnt := c.nOvf } := by
  rw [effects_append, effects_within_period h hn, effects_cons, effects_nil,
    effect_of_last hlast (by dsimp only; omega) (by omega), edges_with_ovfCnt, sampleRegs_with_ovfCnt,
    ← edges_append, ← pairsOf_append]

end Sys2Proof.Machine

end

section

namespace Sys2Proof.Machine

variable {c : Config} {r : Regs}

/-! ## Runs in DIRECT (R100) -/

theorem nextPair_of_sentinel {p n : StateCode} (h : classify p n = .sentinel) : nextPair p n = p := by
  rw [nextPair, h]

theorem nextPair_of_decided {p n : StateCode} {d : Decision} (h : classify p n = .decided d) :
    nextPair p n = n := by
  rw [nextPair, h]

theorem acceptedDecisions_of_sentinel {p n : StateCode} (h : classify p n = .sentinel)
    (ns : List StateCode) : acceptedDecisions p (n :: ns) = acceptedDecisions p ns := by
  rw [acceptedDecisions, h]

theorem acceptedDecisions_of_decided {p n : StateCode} {d : Decision} (h : classify p n = .decided d)
    (ns : List StateCode) : acceptedDecisions p (n :: ns) = d :: acceptedDecisions n ns := by
  rw [acceptedDecisions, h]

/-- A run in DIRECT ends at the last accepted pair, and lowers ACC by the accepted classifications,
each step wrapping. -/
theorem edges_direct (hm : c.mode = .direct) (ns : List StateCode) :
    (edges c ns r).state = lastAccepted r.state ns ∧
      wrapS c.accW (edges c ns r).acc =
        wrapS c.accW (r.acc - ((acceptedDecisions r.state ns).map decisionValue).sum) := by
  induction ns generalizing r with
  | nil => exact ⟨rfl, by simp [acceptedDecisions]⟩
  | cons n ns ih =>
    obtain ⟨hstate, hacc⟩ := ih (r := edgeDirect c n r)
    rw [edges_cons, edgeRegs_of_direct hm, hstate, hacc, lastAccepted, lastAccepted, List.foldl_cons]
    cases h : classify r.state n with
    | sentinel =>
      rw [edgeDirect_of_sentinel h, nextPair_of_sentinel h, acceptedDecisions_of_sentinel h]
      exact ⟨rfl, rfl⟩
    | decided d =>
      rw [edgeDirect_of_decided h, nextPair_of_decided h, acceptedDecisions_of_decided h, List.map_cons,
        List.sum_cons, wrapS_wrapS_sub, sub_sub]
      exact ⟨rfl, rfl⟩

/-! ## Runs in PULSE (R105) -/

/-- The counted edges of a sequence, the first transition apart. -/
theorem pulsesIn_cons_cons (e : PulseEdge) (a b : Bool) (as : List Bool) :
    pulsesIn e (a :: b :: as) = (isPulse e a b).toNat + pulsesIn e (b :: as) := by
  simp only [pulsesIn, List.tail_cons, List.zip_cons_cons, List.filter_cons]
  cases isPulse e a b
  · simp
  · simp [Nat.add_comm]

/-- A PULSE edge writes the raw pair, and counts channel A's edge modulo `2^PCNT_W`. -/
theorem edgePulse_state_pcnt (n : StateCode) :
    (edgePulse c n r).state = n ∧ (edgePulse c n r).pcnt % 2 ^ c.pcntW =
      (r.pcnt + (isPulse c.pulseEdge (channelA r.state) (channelA n)).toNat) % 2 ^ c.pcntW := by
  rw [edgePulse_eq]
  refine ⟨rfl, ?_⟩
  dsimp only
  cases isPulse c.pulseEdge (channelA r.state) (channelA n) with
  | false => rfl
  | true => rw [if_pos rfl, wrapU_succ, Nat.mod_mod]; rfl

/-- A run in PULSE counts the chosen edges of channel A modulo `2^PCNT_W`. -/
theorem edges_pulse (hm : c.mode = .pulse) (ns : List StateCode) :
    (edges c ns r).pcnt % 2 ^ c.pcntW =
      (r.pcnt + pulsesIn c.pulseEdge (channelA r.state :: ns.map channelA)) % 2 ^ c.pcntW := by
  induction ns generalizing r with
  | nil => rfl
  | cons n ns ih =>
    obtain ⟨hstate, hpcnt⟩ := edgePulse_state_pcnt (c := c) (r := r) n
    rw [edges_cons, edgeRegs_of_pulse hm, ih, hstate, List.map_cons, pulsesIn_cons_cons, ← Nat.add_assoc,
      Nat.add_mod, hpcnt, ← Nat.add_mod]

end Sys2Proof.Machine

open Sys2Proof Sys2Proof.Machine

/-- Settles O35: the accumulator before the sample is minus the sum, which is in range and so did not
wrap. -/
theorem directRateIsTheSumOfClassifications : Obligations.DirectRateIsTheSumOfClassifications := by
  rintro s is last ⟨hready, hinv⟩ hm hacc0 hwithin hcount hlast sum hrange
  have ⟨_, _, _, _, ⟨_, hn⟩, _⟩ := hinv
  have ⟨_, _, _, _, hw, _⟩ := hready.1
  obtain ⟨hr, hrun, -⟩ := runAll_ready (is ++ [last]) hready
  rw [effects_of_period hwithin hn hcount hlast, sampleRegs_acc (by rw [hm]; decide)] at hrun
  set ns := pairsOf (is ++ [last])
  have ⟨_, hend, _⟩ := edges_inv hready.1 ns hinv
  obtain ⟨hstate, hwrap⟩ := edges_direct (c := s.cfg) (r := s.regs) hm ns
  have hacc : (edges s.cfg ns s.regs).acc = -sum := by
    rwa [wrapS_of_range (by omega) hend, hacc0, zero_sub, wrapS_of_range (by omega) hrange] at hwrap
  refine ⟨_, hrun, ?_, rfl, hstate⟩
  dsimp only
  rw [hacc, Int.natAbs_neg, rateOf, Nat.cast_natAbs]

/-- Settles O36: the count before the sample is in range and so did not wrap; DIR and ACC stand at their
reset values by the invariant. -/
theorem pulseRateIsTheNumberOfEdges : Obligations.PulseRateIsTheNumberOfEdges := by
  rintro s is last ⟨hready, hinv⟩ hm hpcnt0 hwithin hcount hlast count hrange
  have ⟨_, _, _, _, ⟨_, hn⟩, _⟩ := hinv
  obtain ⟨hr, hrun, -⟩ := runAll_ready (is ++ [last]) hready
  rw [effects_of_period hwithin hn hcount hlast, sampleRegs_pcnt hm] at hrun
  set ns := pairsOf (is ++ [last])
  have ⟨_, _, hend, _, _, _, _, _, hpulse⟩ := edges_inv hready.1 ns hinv
  obtain ⟨hacc, hdir, -⟩ := hpulse hm
  have hmod : (edges s.cfg ns s.regs).pcnt % 2 ^ s.cfg.pcntW = (s.regs.pcnt + count) % 2 ^ s.cfg.pcntW :=
    edges_pulse hm ns
  have hpcnt : (edges s.cfg ns s.regs).pcnt = count := by
    rwa [Nat.mod_eq_of_lt hend, hpcnt0, Nat.zero_add, Nat.mod_eq_of_lt hrange] at hmod
  refine ⟨_, hrun, ?_, rfl, hdir, hacc⟩
  dsimp only
  rw [hpcnt, rateOf]

end

section

namespace Sys2Proof.Machine

/-! ## Poll windows of a list of votes (R93, R97) -/

section Windows

variable {ep : Nat} {vs : List Decision} {v : Decision}

/-- The verdict of the last full window of a list of votes, or what stood before where none filled. -/
def lastVerdict (ep : Nat) (before : Direction) (vs : List Decision) : Direction :=
  if vs.length / ep = 0 then before else verdictOf (pollWindow ep (vs.length / ep - 1) vs)

theorem openWindow_length (ep : Nat) (vs : List Decision) :
    (openWindow ep vs).length = vs.length % ep := by
  have h := Nat.div_add_mod' vs.length ep
  rw [openWindow, List.length_drop]
  omega

/-- A vote short of a full window opens no new one. -/
theorem windows_append_of_short (h : (openWindow ep vs).length + 1 < ep) :
    (vs ++ [v]).length / ep = vs.length / ep := by
  rw [openWindow_length] at h
  rw [List.length_append, List.length_singleton, Nat.div_eq_iff (by omega)]
  have := Nat.div_add_mod' vs.length ep
  omega

/-- The vote that fills a window adds one to the full ones. -/
theorem windows_append_of_full (h : (openWindow ep vs).length + 1 = ep) :
    (vs ++ [v]).length / ep = vs.length / ep + 1 := by
  rw [openWindow_length] at h
  rw [List.length_append, List.length_singleton, Nat.div_eq_iff (by omega), Nat.add_mul]
  have := Nat.div_add_mod' vs.length ep
  omega

theorem openWindow_append_of_short (h : (openWindow ep vs).length + 1 < ep) :
    openWindow ep (vs ++ [v]) = openWindow ep vs ++ [v] := by
  rw [openWindow, windows_append_of_short h, List.drop_append_of_le_length (Nat.div_mul_le_self _ _),
    openWindow]

theorem openWindow_append_of_full (h : (openWindow ep vs).length + 1 = ep) :
    openWindow ep (vs ++ [v]) = [] := by
  have hsplit := Nat.div_add_mod' vs.length ep
  rw [openWindow_length] at h
  rw [openWindow, windows_append_of_full (by rwa [openWindow_length]), List.drop_eq_nil_iff,
    List.length_append, List.length_singleton, Nat.add_mul]
  omega

/-- A full window stays as it is whatever votes follow. -/
theorem pollWindow_append {j : Nat} (hj : j < vs.length / ep) (ws : List Decision) :
    pollWindow ep j (vs ++ ws) = pollWindow ep j vs := by
  have hend : (j + 1) * ep ≤ vs.length :=
    (Nat.mul_le_mul_right ep hj).trans (Nat.div_mul_le_self _ _)
  rw [Nat.add_mul] at hend
  rw [pollWindow, List.drop_append_of_le_length (by omega),
    List.take_append_of_le_length (by rw [List.length_drop]; omega), pollWindow]

/-- The window a vote fills is the open one with that vote. -/
theorem pollWindow_append_of_full (h : (openWindow ep vs).length + 1 = ep) :
    pollWindow ep (vs.length / ep) (vs ++ [v]) = openWindow ep vs ++ [v] := by
  rw [pollWindow, List.drop_append_of_le_length (Nat.div_mul_le_self _ _), ← openWindow,
    List.take_of_length_le]
  rw [List.length_append, List.length_singleton, h]

/-- The full windows so far weigh the same whatever votes follow. -/
theorem map_verdictValue_append (ep : Nat) (vs ws : List Decision) :
    (List.range (vs.length / ep)).map (fun j => verdictValue (verdictOf (pollWindow ep j (vs ++ ws)))) =
      (List.range (vs.length / ep)).map (fun j => verdictValue (verdictOf (pollWindow ep j vs))) :=
  List.map_congr_left fun j hj => by rw [pollWindow_append (List.mem_range.mp hj)]

theorem windowBalance_append_of_short (h : (openWindow ep vs).length + 1 < ep) :
    windowBalance ep (vs ++ [v]) = windowBalance ep vs := by
  rw [windowBalance, windows_append_of_short h, map_verdictValue_append, windowBalance]

theorem windowBalance_append_of_full (h : (openWindow ep vs).length + 1 = ep) :
    windowBalance ep (vs ++ [v]) =
      windowBalance ep vs + verdictValue (verdictOf (openWindow ep vs ++ [v])) := by
  rw [windowBalance, windows_append_of_full h, List.range_succ, List.map_append, List.sum_append,
    map_verdictValue_append, ← windowBalance, List.map_singleton, List.sum_singleton,
    pollWindow_append_of_full h]

theorem lastVerdict_append_of_short (before : Direction) (h : (openWindow ep vs).length + 1 < ep) :
    lastVerdict ep before (vs ++ [v]) = lastVerdict ep before vs := by
  rw [lastVerdict, lastVerdict, windows_append_of_short h]
  split
  · rfl
  · rw [pollWindow_append (Nat.sub_one_lt ‹_›)]

theorem lastVerdict_append_of_full (before : Direction) (h : (openWindow ep vs).length + 1 = ep) :
    lastVerdict ep before (vs ++ [v]) = verdictOf (openWindow ep vs ++ [v]) := by
  rw [lastVerdict, windows_append_of_full h, if_neg (Nat.succ_ne_zero _), Nat.add_sub_cancel,
    pollWindow_append_of_full h]

/-- Votes short of a window are all in the open one. -/
theorem openWindow_of_short (h : vs.length < ep) : openWindow ep vs = vs := by
  rw [openWindow, Nat.div_eq_of_lt h, Nat.zero_mul, List.drop_zero]

/-- Every vote is CW or CCW. -/
theorem count_cw_add_count_ccw (h : ∀ v ∈ vs, v ≠ .noRot) :
    vs.count .cw + vs.count .ccw = vs.length := by
  induction vs with
  | nil => rfl
  | cons v vs ih =>
    rw [List.forall_mem_cons] at h
    have hrest := ih h.2
    cases v with
    | noRot => exact absurd rfl h.1
    | cw => simp; omega
    | ccw => simp; omega

end Windows

/-! ## The votes of a run in VOTE (R91, R92) -/

section Votes

variable {c : Config} {r : Regs} {n : StateCode}

theorem edgeVote_oldRot : (edgeVote c n r).oldRot = takeDecision n r := rfl

theorem edgeVote_state : (edgeVote c n r).state = nextPair r.state n := by
  rw [edgeVote_frame]
  cases h : classify r.state n with
  | sentinel => rw [acceptPair_of_sentinel h, nextPair_of_sentinel h]
  | decided d => rw [acceptPair_of_decided h, nextPair_of_decided h]; rfl

/-- The decision an edge takes comes before those taken from the registers it leaves. -/
theorem decisions_cons (c : Config) (n : StateCode) (ns : List StateCode) (r : Regs) :
    decisions r.state r.oldRot (n :: ns) =
      takeDecision n r :: decisions (edgeVote c n r).state (edgeVote c n r).oldRot ns := by
  rw [edgeVote_state, edgeVote_oldRot]
  rfl

/-- The last decision of a run is taken on the registers the run before it leaves. -/
theorem decisions_append (hm : c.mode = .vote) (ns : List StateCode) (n : StateCode) :
    decisions r.state r.oldRot (ns ++ [n]) =
      decisions r.state r.oldRot ns ++ [takeDecision n (edges c ns r)] := by
  induction ns generalizing r with
  | nil => rfl
  | cons m ns ih =>
    rw [List.cons_append, decisions_cons c, ih, decisions_cons c, edges_cons, edgeRegs_of_vote hm,
      List.cons_append]

theorem edges_vote_state (hm : c.mode = .vote) (ns : List StateCode) :
    (edges c ns r).state = lastAccepted r.state ns := by
  induction ns generalizing r with
  | nil => rfl
  | cons n ns ih => rw [edges_cons, edgeRegs_of_vote hm, ih, edgeVote_state]; rfl

theorem edges_vote_oldRot (hm : c.mode = .vote) (ns : List StateCode) :
    (edges c ns r).oldRot = (decisions r.state r.oldRot ns).getLastD r.oldRot := by
  cases ns using List.reverseRecOn with
  | nil => rfl
  | append_singleton ns n =>
    rw [edges_append, edges_cons, edges_nil, edgeRegs_of_vote hm, edgeVote_oldRot, decisions_append hm,
      List.getLastD_concat]

theorem votesOf_append (hm : c.mode = .vote) (ns : List StateCode) (n : StateCode) :
    votesOf r (ns ++ [n]) = votesOf r ns ++ votes [takeDecision n (edges c ns r)] := by
  rw [votesOf, decisions_append hm, votes, List.filter_append, ← List.append_assoc]
  rfl

theorem ne_noRot_of_mem_votesOf {ns : List StateCode} : ∀ v ∈ votesOf r ns, v ≠ .noRot := by
  intro v hv
  simp only [votesOf, carriedVotes, votes, List.mem_append, List.mem_replicate, List.mem_filter] at hv
  obtain (⟨-, rfl⟩ | ⟨-, rfl⟩) | ⟨-, hne⟩ := hv
  · decide
  · decide
  · exact of_decide_eq_true hne

theorem votes_replicate {d : Decision} (h : d ≠ .noRot) (k : Nat) :
    votes (List.replicate k d) = List.replicate k d := by
  simp [votes, h]

/-- A VOTE edge that takes no rotation counts nothing. -/
theorem edgeVote_of_noRot (ht : r.tcw + r.tccw < c.ep) (h : takeDecision n r = .noRot) :
    edgeVote c n r = { r with state := (acceptPair n r).state, oldRot := .noRot } := by
  have hcw : talliedCw n r = r.tcw := by rw [talliedCw, h]; rfl
  have hccw : talliedCcw n r = r.tccw := by rw [talliedCcw, h]; rfl
  rw [edgeVote_of_short ht (by omega), h, hcw, hccw]

/-! ## The registers against the votes (R92, R93, R97) -/

/-- The voter's registers are those of majority votes over the windows of `vs`, from `r₀` on; ACC up to
the wrap of R11. -/
structure Regs.Voted (r : Regs) (c : Config) (r₀ : Regs) (vs : List Decision) : Prop where
  tcw  : r.tcw = (openWindow c.ep vs).count .cw
  tccw : r.tccw = (openWindow c.ep vs).count .ccw
  dir  : r.dir = lastVerdict c.ep r₀.dir vs
  acc  : wrapS c.accW r.acc = wrapS c.accW (r₀.acc + windowBalance c.ep vs * c.ep)

theorem carriedVotes_length (r : Regs) : (carriedVotes r).length = r.tcw + r.tccw := by
  simp [carriedVotes]

/-- Before a run the votes are those carried in the tallies, and no window is full. -/
theorem voted_carriedVotes (h : r.tcw + r.tccw < c.ep) : r.Voted c r (carriedVotes r) := by
  have hlen := carriedVotes_length r
  have hopen : openWindow c.ep (carriedVotes r) = carriedVotes r := openWindow_of_short (by omega)
  have hnone : (carriedVotes r).length / c.ep = 0 := Nat.div_eq_of_lt (by omega)
  constructor
  · rw [hopen]; simp [carriedVotes, List.count_replicate]
  · rw [hopen]; simp [carriedVotes, List.count_replicate]
  · rw [lastVerdict, if_pos hnone]
  · rw [windowBalance, hnone]; simp

/-- The tallies are all the votes of the open window. -/
theorem Regs.Voted.tallies {r₀ : Regs} {vs : List Decision} (h : r.Voted c r₀ vs)
    (hvs : ∀ v ∈ vs, v ≠ .noRot) : r.tcw + r.tccw = (openWindow c.ep vs).length := by
  have hopen : ∀ v ∈ openWindow c.ep vs, v ≠ .noRot := fun v hv => hvs v (List.mem_of_mem_drop hv)
  rw [h.tcw, h.tccw, count_cw_add_count_ccw hopen]

/-- A window's verdict moves ACC by `EP` times its value, up to the wrap. -/
theorem wrapS_creditWindow_acc (verdict : Direction) :
    wrapS c.accW (creditWindow c verdict r).acc =
      wrapS c.accW (wrapS c.accW r.acc + verdictValue verdict * c.ep) := by
  cases verdict with
  | cw => simp [creditWindow, verdictValue, wrapS, Int.sub_eq_add_neg]
  | ccw => simp [creditWindow, verdictValue, wrapS]
  | none => simp [creditWindow, verdictValue, wrapS]

/-- One VOTE edge adds its decision to the votes, unless it is 0. -/
theorem Regs.Voted.edge {r₀ : Regs} {vs : List Decision} (h : r.Voted c r₀ vs)
    (hvs : ∀ v ∈ vs, v ≠ .noRot) (hep : 1 ≤ c.ep) (n : StateCode) :
    (edgeVote c n r).Voted c r₀ (vs ++ votes [takeDecision n r]) := by
  have htotal := h.tallies hvs
  have hshort : r.tcw + r.tccw < c.ep := by
    rw [htotal, openWindow_length]
    exact Nat.mod_lt _ hep
  obtain ⟨htcw, htccw, hdir, hacc⟩ := h
  by_cases hd : takeDecision n r = .noRot
  · have hnone : vs ++ votes [takeDecision n r] = vs := by rw [hd]; exact List.append_nil vs
    rw [edgeVote_of_noRot hshort hd, hnone]
    exact ⟨htcw, htccw, hdir, hacc⟩
  · have hone : votes [takeDecision n r] = [takeDecision n r] := by simp [votes, hd]
    have hcw : talliedCw n r = (openWindow c.ep vs ++ [takeDecision n r]).count .cw := by
      rw [talliedCw, htcw, List.count_append]
      cases takeDecision n r <;> rfl
    have hccw : talliedCcw n r = (openWindow c.ep vs ++ [takeDecision n r]).count .ccw := by
      rw [talliedCcw, htccw, List.count_append]
      cases takeDecision n r <;> rfl
    have hsum := tallied_sum (n := n) (r := r)
    rw [if_neg hd, htotal] at hsum
    rw [hone]
    by_cases hfull : talliedCw n r + talliedCcw n r = c.ep
    · have hfills : (openWindow c.ep vs).length + 1 = c.ep := by omega
      rw [edgeVote_of_full hshort hfull]
      constructor
      · rw [openWindow_append_of_full hfills]; rfl
      · rw [openWindow_append_of_full hfills]; rfl
      · rw [lastVerdict_append_of_full _ hfills, verdictOf, ← hcw, ← hccw]
      · dsimp only
        rw [windowBalance_append_of_full hfills, wrapS_creditWindow_acc, hacc, verdictOf, ← hcw, ← hccw,
          wrapS_wrapS_add, add_mul, add_assoc]
    · have hstays : (openWindow c.ep vs).length + 1 < c.ep := by omega
      rw [edgeVote_of_short hshort hfull]
      constructor
      · rw [openWindow_append_of_short hstays]; exact hcw
      · rw [openWindow_append_of_short hstays]; exact hccw
      · rw [lastVerdict_append_of_short _ hstays]; exact hdir
      · rw [windowBalance_append_of_short hstays]; exact hacc

/-- A run in VOTE is majority votes over the windows of its votes, the carried ones first. -/
theorem edges_voted (hm : c.mode = .vote) (h : r.tcw + r.tccw < c.ep) (ns : List StateCode) :
    (edges c ns r).Voted c r (votesOf r ns) := by
  induction ns using List.reverseRecOn with
  | nil =>
    have hnone : votesOf r [] = carriedVotes r := List.append_nil _
    rw [hnone]
    exact voted_carriedVotes h
  | append_singleton ns n ih =>
    rw [edges_append, edges_cons, edges_nil, edgeRegs_of_vote hm, votesOf_append hm]
    exact ih.edge ne_noRot_of_mem_votesOf (by omega) n

end Votes

end Sys2Proof.Machine

open Sys2Proof Sys2Proof.Machine

/-- Settles O32: within a period a stream is its edges, and these vote; ACC is in range by the invariant,
so that its wrapped value is its value. -/
theorem voteRunIsMajorityOverWindows : Obligations.VoteRunIsMajorityOverWindows := by
  rintro s is ⟨hready, hinv⟩ hm hwithin vs
  have ⟨htally, _, _, _, ⟨_, hn⟩, _⟩ := hinv
  have ⟨_, _, _, _, hw, _⟩ := hready.1
  obtain ⟨hr, hrun, -⟩ := runAll_ready is hready
  rw [effects_within_period hwithin hn] at hrun
  have ⟨_, hrange, _⟩ := edges_inv hready.1 (pairsOf is) hinv
  obtain ⟨htcw, htccw, hdir, hacc⟩ := edges_voted hm htally (pairsOf is)
  rw [wrapS_of_range (by omega) hrange] at hacc
  exact ⟨_, hrun, hacc, htcw, htccw, hdir, edges_vote_state hm _, edges_vote_oldRot hm _,
    (edges_rateQ_ovfCnt _).1⟩

/-- Settles O33: the tallies are the votes of the open window, whose length is the remainder. -/
theorem talliesCountVotesModuloWindow : Obligations.TalliesCountVotesModuloWindow := by
  intro s ns hs hm htally
  refine ⟨_, runAll_edges hs ns, ?_⟩
  rw [(edges_voted hm htally ns).tallies ne_noRot_of_mem_votesOf, openWindow_length, votesOf,
    List.length_append, carriedVotes_length]

end

section

namespace Sys2Proof.Machine

variable {c : Config} {r : Regs}

/-! ## Runs of sentinels (R96) -/

/-- Outside PULSE a run of sentinels leaves the pair they are sentinels of, and the last decision. -/
theorem edges_state_oldRot_of_sentinels (hm : c.mode ≠ .pulse) {ns : List StateCode}
    (h : ∀ n ∈ ns, classify r.state n = .sentinel) :
    (edges c ns r).state = r.state ∧ (edges c ns r).oldRot = r.oldRot := by
  induction ns generalizing r with
  | nil => exact ⟨rfl, rfl⟩
  | cons n ns ih =>
    obtain ⟨hn, hrest⟩ := List.forall_mem_cons.mp h
    obtain ⟨hstate, hold⟩ := edgeRegs_state_oldRot_of_sentinel hm hn
    rw [edges_cons, ← hold, ← hstate]
    exact ih (by rwa [hstate])

/-- Each sentinel of a run repeats the last decision. -/
theorem decisions_of_sentinels {p : StateCode} {old : Decision} {ns : List StateCode}
    (h : ∀ n ∈ ns, classify p n = .sentinel) : decisions p old ns = List.replicate ns.length old := by
  induction ns with
  | nil => rfl
  | cons n ns ih =>
    obtain ⟨hn, hrest⟩ := List.forall_mem_cons.mp h
    rw [decisions, nextPair_of_sentinel hn, hn, List.length_cons, List.replicate_succ]
    exact congrArg _ (ih hrest)

/-- Without a decision to repeat, a sentinel leaves every register. -/
theorem edgeVote_of_sentinel_noRot {n : StateCode} (ht : r.tcw + r.tccw < c.ep)
    (h : classify r.state n = .sentinel) (hold : r.oldRot = .noRot) : edgeVote c n r = r := by
  have hd : takeDecision n r = .noRot := (takeDecision_of_sentinel h).trans hold
  rw [edgeVote_of_noRot ht hd, acceptPair_of_sentinel h, ← hold]

/-- The votes of a run of sentinels are the carried ones and the last decision over and over. -/
theorem votesOf_sentinels {ns : List StateCode} (h : ∀ n ∈ ns, classify r.state n = .sentinel)
    (hold : r.oldRot ≠ .noRot) :
    votesOf r ns = carriedVotes r ++ List.replicate ns.length r.oldRot := by
  rw [votesOf, decisions_of_sentinels h, votes_replicate hold]

/-- Once a window has filled, the open one holds nothing but the vote that comes over and over. -/
theorem openWindow_append_replicate {ep k : Nat} {us : List Decision} (d : Decision)
    (h : us.length < ep) (hfull : ep ≤ us.length + k) :
    openWindow ep (us ++ List.replicate k d) = List.replicate ((us.length + k) % ep) d := by
  have hlen : (us ++ List.replicate k d).length = us.length + k := by simp
  have hsplit := Nat.div_add_mod' (us.length + k) ep
  have hone : ep ≤ (us.length + k) / ep * ep := Nat.le_mul_of_pos_left ep (Nat.div_pos hfull (by omega))
  rw [openWindow, hlen, List.drop_append, List.drop_eq_nil_of_le (by omega), List.nil_append,
    List.drop_replicate]
  congr 1
  omega

/-- After a run that repeats one nonzero decision, a tally is what it carried and, for that decision,
the run's length, until a window fills; then the decision's own is the remainder and the other 0. -/
theorem count_openWindow_sentinels {ep k : Nat} {d : Decision} (v : Decision)
    (h : r.tcw + r.tccw < ep) :
    (openWindow ep (carriedVotes r ++ List.replicate k d)).count v =
      if r.tcw + r.tccw + k < ep then (carriedVotes r).count v + if d = v then k else 0
      else if d = v then (r.tcw + r.tccw + k) % ep else 0 := by
  have hlen := carriedVotes_length r
  split
  · rw [openWindow_of_short (by rw [List.length_append, List.length_replicate]; omega),
      List.count_append, List.count_replicate]
    simp
  · rw [openWindow_append_replicate d (by omega) (by omega), hlen, List.count_replicate]
    simp

theorem carriedVotes_count (r : Regs) :
    (carriedVotes r).count .cw = r.tcw ∧ (carriedVotes r).count .ccw = r.tccw := by
  simp [carriedVotes, List.count_replicate]

end Sys2Proof.Machine

open Sys2Proof Sys2Proof.Machine

/-- Settles O22: without a last decision nothing changes; otherwise the votes of the run are all that
decision. -/
theorem sentinelRunFeedsOneBucket : Obligations.SentinelRunFeedsOneBucket := by
  intro s ns hs hm htally hsent
  obtain ⟨hstate, hold⟩ := edges_state_oldRot_of_sentinels (c := s.cfg) (by rw [hm]; decide) hsent
  obtain ⟨hcarriedCw, hcarriedCcw⟩ := carriedVotes_count s.regs
  have hvoted := edges_voted hm htally ns
  refine ⟨_, runAll_edges hs ns, hstate, hold, fun hnone => ?_, fun hcw => ?_, fun hccw => ?_⟩
  · refine edges_of_fixed fun n hn => ?_
    rw [edgeRegs_of_vote hm, edgeVote_of_sentinel_noRot htally (hsent n hn) hnone]
  · rw [votesOf_sentinels hsent (by rw [hcw]; decide), hcw] at hvoted
    dsimp only
    rw [hvoted.tcw, hvoted.tccw, count_openWindow_sentinels _ htally, count_openWindow_sentinels _ htally,
      hcarriedCw, hcarriedCcw]
    exact ⟨rfl, rfl⟩
  · rw [votesOf_sentinels hsent (by rw [hccw]; decide), hccw] at hvoted
    dsimp only
    rw [hvoted.tcw, hvoted.tccw, count_openWindow_sentinels _ htally, count_openWindow_sentinels _ htally,
      hcarriedCw, hcarriedCcw]
    exact ⟨rfl, rfl⟩

end

section

namespace Sys2Proof.Machine

variable {c : Config} {r u : Regs}

/-! ## DIRECT as VOTE with a window of one (R95, R100) -/

/-- With a window of one, an accepted transition in VOTE is one in DIRECT, except that DIR waits for a
nonzero decision. -/
theorem edgeVote_of_window_one {n : StateCode} {d : Decision} (hep : c.ep = 1) (hw : 1 ≤ c.accW)
    (hr : r.Inv c) (h : classify r.state n = .decided d) :
    edgeVote c n r = { r with
      state := n
      oldRot := d
      dir := if d = .noRot then r.dir else directionOf d
      acc := wrapS c.accW (r.acc - decisionValue d) } := by
  obtain ⟨htally, hacc, -⟩ := hr
  have htcw : r.tcw = 0 := by omega
  have htccw : r.tccw = 0 := by omega
  have hd : takeDecision n r = d := takeDecision_of_decided h
  cases d with
  | noRot =>
    rw [edgeVote_of_noRot htally hd, acceptPair_of_decided h, decisionValue, sub_zero,
      wrapS_of_range hw hacc]
    rfl
  | cw =>
    have hcw : talliedCw n r = 1 := by rw [talliedCw, hd, htcw]; rfl
    have hccw : talliedCcw n r = 0 := by rw [talliedCcw, hd, htccw]; rfl
    rw [edgeVote_of_full htally (by omega), hd, hcw, hccw, acceptPair_of_decided h, creditWindow_acc, hep,
      htcw, htccw]
    rfl
  | ccw =>
    have hcw : talliedCw n r = 0 := by rw [talliedCw, hd, htcw]; rfl
    have hccw : talliedCcw n r = 1 := by rw [talliedCcw, hd, htccw]; rfl
    rw [edgeVote_of_full htally (by omega), hd, hcw, hccw, acceptPair_of_decided h, creditWindow_acc, hep,
      htcw, htccw]
    rfl

/-- The registers that VOTE with a window of one and DIRECT keep alike. -/
structure Regs.InStep (r u : Regs) : Prop where
  state  : r.state = u.state
  oldRot : r.oldRot = u.oldRot
  acc    : r.acc = u.acc

/-- On an accepted transition the two modes stay in step, and agree on DIR where the decision is not 0. -/
theorem Regs.InStep.edge {n : StateCode} {d : Decision} (h : r.InStep u) (hep : c.ep = 1)
    (hw : 1 ≤ c.accW) (hr : r.Inv c) (hclass : classify r.state n = .decided d) :
    (edgeVote c n r).InStep (edgeDirect c n u) ∧
      ((edgeVote c n r).oldRot ≠ .noRot → (edgeVote c n r).dir = (edgeDirect c n u).dir) := by
  rw [edgeVote_of_window_one hep hw hr hclass, edgeDirect_of_decided (h.state ▸ hclass), h.acc]
  exact ⟨⟨rfl, rfl, rfl⟩, fun hd => if_neg hd⟩

theorem length_acceptedDecisions_le (p : StateCode) (ns : List StateCode) :
    (acceptedDecisions p ns).length ≤ ns.length := by
  induction ns generalizing p with
  | nil => exact le_rfl
  | cons n ns ih =>
    cases h : classify p n with
    | sentinel => rw [acceptedDecisions_of_sentinel h]; exact (ih p).trans (Nat.le_succ _)
    | decided d => rw [acceptedDecisions_of_decided h]; exact Nat.succ_le_succ (ih n)

/-- A stream is without a sentinel when its first transition is accepted and so are the others from
there. -/
theorem all_accepted_cons {p n : StateCode} {ns : List StateCode}
    (h : (acceptedDecisions p (n :: ns)).length = (n :: ns).length) :
    (∃ d, classify p n = .decided d) ∧ (acceptedDecisions n ns).length = ns.length := by
  cases hclass : classify p n with
  | sentinel =>
    have hle := length_acceptedDecisions_le p ns
    rw [acceptedDecisions_of_sentinel hclass, List.length_cons] at h
    omega
  | decided d =>
    rw [acceptedDecisions_of_decided hclass, List.length_cons, List.length_cons] at h
    exact ⟨⟨d, rfl⟩, Nat.succ.inj h⟩

/-- Over a run without a sentinel the two modes stay in step, and agree on DIR where the last decision
is not 0. -/
theorem edges_inStep (hc : c.Valid) (hm : c.mode = .vote) (hep : c.ep = 1) {ns : List StateCode}
    (hns : (acceptedDecisions r.state ns).length = ns.length) (hr : r.Inv c) (h : r.InStep u) :
    (edges c ns r).InStep (edges { c with mode := .direct } ns u) ∧
      ((edges c ns r).oldRot ≠ .noRot → ns ≠ [] →
        (edges c ns r).dir = (edges { c with mode := .direct } ns u).dir) := by
  induction ns generalizing r u with
  | nil => exact ⟨h, fun _ hne => absurd rfl hne⟩
  | cons n ns ih =>
    have ⟨_, _, _, _, hw, _⟩ := hc
    obtain ⟨⟨d, hd⟩, hrest⟩ := all_accepted_cons hns
    obtain ⟨hstep, hdir⟩ := h.edge hep (by omega) hr hd
    have hstate : (edgeVote c n r).state = n := edgeVote_state.trans (nextPair_of_decided hd)
    have hdirect : edgeRegs { c with mode := .direct } n u = edgeDirect c n u := rfl
    obtain ⟨hend, hdirs⟩ := ih (by rwa [hstate]) (edgeVote_inv hc hm n hr) hstep
    rw [edges_cons, edges_cons, edgeRegs_of_vote hm, hdirect]
    refine ⟨hend, fun hne _ => ?_⟩
    by_cases hlast : ns = []
    · subst hlast
      exact hdir hne
    · exact hdirs hne hlast

end Sys2Proof.Machine

open Sys2Proof Sys2Proof.Machine

/-- Settles O37: the two blocks start in step, and the run keeps them so. -/
theorem directIsVoteWithAWindowOfOne : Obligations.DirectIsVoteWithAWindowOfOne := by
  rintro s ns ⟨hready, hinv⟩ hm hep hns
  obtain ⟨⟨hstate, hold, hacc⟩, hdir⟩ := edges_inStep hready.1 hm hep hns hinv ⟨rfl, rfl, rfl⟩
  exact ⟨_, _, runAll_edges hready ns,
    runAll_edges (s := { s with cfg := { s.cfg with mode := .direct } }) hready ns,
    hstate, hold, hacc, hdir⟩

end

section

namespace Sys2Proof.Machine

/-! ## The rate of a signed count (R121) -/

theorem rateOf_natAbs (c : Config) (v : Int) :
    rateOf c v.natAbs = ((|v| : Int) : Rat) / ((c.cpr : Rat) * c.t) := by
  rw [rateOf, Nat.cast_natAbs]

/-- A whole number of windows, in revolutions per second (R125). -/
theorem rateOf_natAbs_windows (c : Config) (k : Int) :
    rateOf c (k * c.ep).natAbs = ((|k| : Int) : Rat) * c.ep / ((c.cpr : Rat) * c.t) := by
  rw [rateOf_natAbs, abs_mul, Nat.abs_cast, Int.cast_mul, Int.cast_natCast]

end Sys2Proof.Machine

open Sys2Proof Sys2Proof.Machine

/-- Settles O34: the accumulator before the sample is the balance of the windows in pulses, which is in
range and so did not wrap; the sample leaves the tallies. -/
theorem voteRateIsWholeWindows : Obligations.VoteRateIsWholeWindows := by
  rintro s is last ⟨hready, hinv⟩ hm hacc0 hwithin hcount hlast vs k hrange
  have ⟨htally, _, _, _, ⟨_, hn⟩, _⟩ := hinv
  have ⟨_, _, _, _, hw, _⟩ := hready.1
  obtain ⟨hr, hrun, -⟩ := runAll_ready (is ++ [last]) hready
  rw [effects_of_period hwithin hn hcount hlast, sampleRegs_acc (by rw [hm]; decide)] at hrun
  have ⟨_, hend, _⟩ := edges_inv hready.1 (pairsOf (is ++ [last])) hinv
  obtain ⟨htcw, htccw, -, hwrap⟩ := edges_voted hm htally (pairsOf (is ++ [last]))
  have hacc : (edges s.cfg (pairsOf (is ++ [last])) s.regs).acc = k * s.cfg.ep := by
    rwa [wrapS_of_range (by omega) hend, hacc0, zero_add, wrapS_of_range (by omega) hrange] at hwrap
  refine ⟨_, hrun, ?_, rfl, rfl, htcw, htccw⟩
  dsimp only
  rw [hacc, rateOf_natAbs_windows]

end

section

namespace Sys2Proof.Machine

variable {c : Config} {r : Regs}

/-! ## The OVF event (R120) -/

/-- The words of OVF, whatever their operand bits (R67, R68). -/
theorem decode_event_ovf : ∀ w : EventWord, w.extractLsb' 2 3 = 0b010 → decode (.event w) = .ovf := by
  decide

theorem exec_ovf_ready {s : State} (h : s.Ready) :
    exec .ovf s = .next { s with regs := ovfRegs s.cfg s.regs } :=
  onRegs_ready h _

/-- An OVF writes at most OVF_CNT, RATE_Q and the count the mode samples, from any state. -/
theorem ovfRegs_frame : ovfRegs c r = { r with
    rateQ := (ovfRegs c r).rateQ
    acc := if c.mode = .pulse then r.acc else (ovfRegs c r).acc
    pcnt := if c.mode = .pulse then (ovfRegs c r).pcnt else r.pcnt
    ovfCnt := (ovfRegs c r).ovfCnt } := by
  dsimp only [ovfRegs]
  split
  · rw [sampleRegs_eq]
    by_cases hm : c.mode = .pulse <;> simp [hm, Regs.setOvfCnt]
  · simp [Regs.setOvfCnt]

/-- Short of the sample boundary no instruction but RST writes RATE_Q (R124). -/
theorem effect_rateQ_of_short {i : Instr} (hi : isRst i = false) (h : (isOverflow i).toNat < r.ovfCnt)
    (hn : r.ovfCnt ≤ c.nOvf) : (effect c i r).rateQ = r.rateQ := by
  rw [effect_of_short hi h hn]
  exact (edges_rateQ_ovfCnt _).1

/-- RATE changes only with RATE_Q (R123). -/
theorem exec_keeps_rate {i : Instr} {s t : State} (h : exec i s = .next t)
    (hrate : t.regs.rateQ = s.regs.rateQ) : t.rate = s.rate := by
  rw [State.rate, State.rate, exec_keeps_cfg h, hrate]

/-! ## The host read (R65, R127) -/

theorem oneHot_eq_ite (d : Direction) :
    oneHot d = if d = .cw then 0b001 else if d = .ccw then 0b010 else 0b100 := by
  cases d <;> rfl

end Sys2Proof.Machine

open Sys2Proof Sys2Proof.Machine

/-- Settles O24: the counter stands above 1, or the sample is taken from the mode's count. -/
theorem ovfCountsAndSamples : Obligations.OvfCountsAndSamples := by
  refine ⟨decode_event_ovf, fun s hs h1 hn => ⟨fun hmore => ?_, fun hlast hm => ?_, fun hlast hm => ?_⟩⟩
  · rw [exec_ovf_ready hs, ovfRegs_of_more (by omega) hn]
  · rw [exec_ovf_ready hs, ovfRegs_of_last hlast hn, sampleRegs_acc hm, rateOf_natAbs]
  · rw [exec_ovf_ready hs, ovfRegs_of_last hlast hn, sampleRegs_pcnt hm, rateOf]

/-- Settles O25, from the frame of OVF on the registers. -/
theorem ovfFrame : Obligations.OvfFrame := by
  intro s t h
  obtain ⟨-, rfl⟩ := onRegs_next (h : execOvf s = .next t)
  dsimp only
  rw [ovfRegs_frame]
  exact ⟨rfl, rfl, rfl, rfl, rfl, rfl, rfl, rfl, rfl, fun hm => if_pos hm, fun hm => if_neg hm⟩

/-- Settles O26: short of the boundary nothing but RST writes RATE_Q, and at it OVF_CNT is 1. -/
theorem rateChangesOnlyAtASampleOrReset : Obligations.RateChangesOnlyAtASampleOrReset := by
  intro s t i h1 hn h hchanged
  cases hrst : isRst i with
  | true => exact .inl rfl
  | false =>
    refine .inr ?_
    by_cases hshort : (isOverflow i).toNat < s.regs.ovfCnt
    · have hrate : t.regs.rateQ = s.regs.rateQ := by
        rw [exec_next_regs h, effect_rateQ_of_short hrst hshort hn]
      exact hchanged.elim (absurd hrate) (absurd (exec_keeps_rate h hrate))
    · have hone := Bool.toNat_le (isOverflow i)
      exact ⟨Bool.toNat_eq_one.mp (by omega), by omega⟩

/-- Settles O27: HRD stands behind the guard of the first RST, and hands over the outputs. -/
theorem hrdReturnsTheOutputs : Obligations.HrdReturnsTheOutputs := by
  refine ⟨fun s hs => ?_, fun s hc hseen => exec_before_rst hc hseen rfl⟩
  rw [← oneHot_eq_ite]
  exact exec_ready hs .hrd

end

section

namespace Sys2Proof.Machine

/-! ## The words of the control events (R67, R68) -/

theorem decode_event_rst {w : EventWord} (h : w[4] = true) : decode (.event w) = .rst w[1] w[0] := by
  rw [decode, decodeEvent_eq_table, if_pos h]

theorem decode_event_idle : ∀ w : EventWord, w.extractLsb' 2 3 = 0b000 → decode (.event w) = .idle := by
  decide

theorem decode_event_edgeOvf :
    ∀ w : EventWord, w.extractLsb' 2 3 = 0b011 → decode (.event w) = .edgeOvf w[1] w[0] := by
  decide

/-! ## The control events on a block (R140 to R142) -/

/-- RST completes from every built block, also before the first RST. -/
theorem exec_rst_built {s : State} (h : s.cfg.Valid) (a b : Bool) :
    exec (.rst a b) s =
      .next { s with rstSeen := true, regs := Regs.afterRst s.cfg (pairCode a b) } :=
  whenBuilt_valid h _

/-- RST reads no register, so its next state meets the invariant whatever stood before. -/
theorem exec_rst_inv {s t : State} {a b : Bool} (h : exec (.rst a b) s = .next t) : t.Inv := by
  have hvalid : s.cfg.Valid := (exec_completes_iff.mp ⟨t, h⟩).1
  have hregs : t.regs = Regs.afterRst s.cfg (pairCode a b) := exec_next_regs h
  refine ⟨exec_next_ready h, ?_⟩
  rw [hregs, exec_keeps_cfg h]
  exact afterRst_inv hvalid _

theorem exec_idle_ready {s : State} (h : s.Ready) : exec .idle s = .next s := onRegs_ready h id

theorem exec_edgeOvf_ready {s : State} (h : s.Ready) (a b : Bool) :
    exec (.edgeOvf a b) s =
      .next { s with regs := ovfRegs s.cfg (edgeRegs s.cfg (pairCode a b) s.regs) } :=
  exec_ready h _

end Sys2Proof.Machine

open Sys2Proof Sys2Proof.Machine

/-- Settles O15: RST writes every register, and IND and RATE are read off `DIR` = NONE and
`RATE_Q` = 0. -/
theorem rstSetsEveryRegister : Obligations.RstSetsEveryRegister :=
  ⟨fun _ => decode_event_rst, fun _ a b hvalid => ⟨_, exec_rst_built hvalid a b, rfl, rfl, rfl⟩⟩

/-- Settles O17: the EDGE leaves a block in use, from which OVF completes with the registers that
EDGE_OVF leaves. -/
theorem edgeOvfIsEdgeThenOvf : Obligations.EdgeOvfIsEdgeThenOvf := by
  refine ⟨decode_event_edgeOvf, fun s a b hs => ?_⟩
  have hedge := exec_edge_ready hs a b
  exact ⟨_, _, hedge, exec_ovf_ready (exec_next_ready hedge), exec_edgeOvf_ready hs a b⟩

/-- Settles O45: the reset values meet the invariant in every valid configuration. -/
theorem rstEstablishesTheInvariant : Obligations.RstEstablishesTheInvariant :=
  fun _ _ _ _ => exec_rst_inv

/-- Settles O16: the three bits that name IDLE decide its word, and it writes no register. -/
theorem idleChangesNothing : Obligations.IdleChangesNothing :=
  ⟨decode_event_idle, fun _ => exec_idle_ready⟩

end

section

namespace Sys2Proof.Machine

/-! ## A block in use never stops (R150, R151, R162) -/

theorem step_of_nothing_presented {s : State} (h : s.input = []) (hvalid : s.cfg.Valid) :
    step s = .next s := by
  rw [step_of_nil h, betweenEvents, whenBuilt_valid hvalid]

/-- A block in use answers every step, whether something is presented or not. -/
theorem exists_step_of_ready {s : State} (h : s.Ready) : ∃ t, step s = .next t := by
  cases hi : s.input with
  | nil => exact ⟨s, step_of_nothing_presented hi h.1⟩
  | cons x rest => exact ⟨_, (step_of_cons hi).trans (exec_ready (s := { s with input := rest }) h _)⟩

/-- A property of states from which every step completes, and which every step keeps, holds after any
number of steps, none of which stops. -/
theorem run_of_invariant {P : State → Prop} (hcompletes : ∀ s, P s → ∃ t, step s = .next t)
    (hkeeps : ∀ s t, P s → step s = .next t → P t) {s : State} (h : P s) (k : Nat) :
    ∃ t, Sys2Proof.core.run k s = .next t ∧ P t := by
  induction k generalizing s with
  | zero => exact ⟨s, rfl, h⟩
  | succ k ih =>
    obtain ⟨u, hu⟩ := hcompletes s h
    rw [core_run_next hu]
    exact ih (hkeeps s u h hu)

end Sys2Proof.Machine

open Sys2Proof Sys2Proof.Machine

/-- Settles O46: a block in use answers every step, and every step keeps the invariant (O43). -/
theorem blockInUseNeverStops : Obligations.BlockInUseNeverStops :=
  fun _ k h => run_of_invariant (fun _ hs => exists_step_of_ready hs.1) everyStepKeepsTheInvariant h k

/-- Settles O13: between events the only guard is that the block is built. -/
theorem stepWithNothingPresentedKeepsTheState : Obligations.StepWithNothingPresentedKeepsTheState :=
  fun _ => step_of_nothing_presented

end

section

namespace Sys2Proof.Machine

/-! ## A shaft that turns one way (R83 (e), R175) -/

variable {way : Decision}

/-- Two turns one way end on the diagonal, three one turn back, and four where they began. -/
theorem iterate_turn_cycle (h : way ≠ .noRot) (p : StateCode) :
    (turn way)^[2] p = p ^^^ 3 ∧ (turn way)^[3] p = turn (opposite way) p ∧ (turn way)^[4] p = p := by
  cases way with
  | noRot => exact absurd rfl h
  | cw => revert p; decide
  | ccw => revert p; decide

/-- The pair seen after `k` missed changes depends on `k` modulo 4 alone. -/
theorem iterate_turn_missed (h : way ≠ .noRot) (k : Nat) (p : StateCode) :
    (turn way)^[k + 1] p = (turn way)^[k % 4 + 1] p := by
  have hperiod : Function.IsPeriodicPt (turn way) 4 p := (iterate_turn_cycle h p).2.2
  rw [Function.iterate_succ_apply', Function.iterate_succ_apply', hperiod.iterate_mod_apply]

/-- The pair seen after `k` missed changes is a turn the true way, the diagonal, a turn the wrong way
or no change, as `k` modulo 4 goes from 0 to 3. -/
theorem classify_missed (h : way ≠ .noRot) (k : Nat) (p : StateCode) :
    (k % 4 = 0 → classify p ((turn way)^[k + 1] p) = .decided way) ∧
    (k % 4 = 1 → classify p ((turn way)^[k + 1] p) = .sentinel) ∧
    (k % 4 = 2 → classify p ((turn way)^[k + 1] p) = .decided (opposite way)) ∧
    (k % 4 = 3 → classify p ((turn way)^[k + 1] p) = .decided .noRot) := by
  obtain ⟨htwo, hthree, hfour⟩ := iterate_turn_cycle h p
  simp only [classify_eq_iff, iterate_turn_missed h k]
  refine ⟨fun hk => ?_, fun hk => ?_, fun hk => ?_, fun hk => ?_⟩ <;> rw [hk]
  · rfl
  · exact htwo
  · exact hthree
  · exact hfour

/-- After a missed change that shows as a sentinel, the shaft's next step looks like one the wrong way. -/
theorem classify_turn_after_sentinel (h : way ≠ .noRot) {k : Nat} (hk : k % 4 = 1) (p : StateCode) :
    classify p (turn way ((turn way)^[k + 1] p)) = .decided (opposite way) := by
  rw [classify_eq_iff, iterate_turn_missed h, hk, ← Function.iterate_succ_apply' (turn way)]
  exact (iterate_turn_cycle h p).2.1

/-! ## What a VOTE edge does with what it sees (R91) -/

theorem exec_edgeTo_vote {s : State} (h : s.Ready) (hm : s.cfg.mode = .vote) (n : StateCode) :
    exec (edgeTo n) s = .next { s with regs := edgeVote s.cfg n s.regs } := by
  rw [edgeTo, exec_edge_ready h, pairCode_bits, edgeRegs_of_vote hm]

variable {c : Config} {n : StateCode} {r : Regs}

theorem edgeVote_state_oldRot_of_decided {d : Decision} (h : classify r.state n = .decided d) :
    (edgeVote c n r).state = n ∧ (edgeVote c n r).oldRot = d :=
  ⟨edgeVote_state.trans (nextPair_of_decided h), takeDecision_of_decided h⟩

/-- An edge at which no change is seen forgets the last decision, and no more. -/
theorem edgeVote_of_no_change (ht : r.tcw + r.tccw < c.ep) :
    edgeVote c r.state r = { r with oldRot := .noRot } := by
  have hnone : classify r.state r.state = .decided .noRot := classify_eq_iff.mpr rfl
  rw [edgeVote_of_noRot ht (takeDecision_of_decided hnone), acceptPair_of_decided hnone]
  rfl

end Sys2Proof.Machine

open Sys2Proof Sys2Proof.Machine

/-- Settles O23: four turns one way are a full circle, so the missed changes show in the one
classification that their number modulo 4 leaves. -/
theorem missedChangesShowModuloFour : Obligations.MissedChangesShowModuloFour := by
  intro s way k hs hm hway ht seen
  obtain ⟨htrue, hsentinel, hwrong, hnone⟩ := classify_missed hway k s.regs.state
  have hexec := exec_edgeTo_vote hs hm seen
  refine ⟨_, hexec, fun hk => edgeVote_state_oldRot_of_decided (htrue hk), fun hk => ?_,
    fun hk => edgeVote_state_oldRot_of_decided (hwrong hk), fun hk => ?_⟩
  · obtain ⟨hstate, hold⟩ :=
      edgeRegs_state_oldRot_of_sentinel (c := s.cfg) (by rw [hm]; decide) (hsentinel hk)
    rw [edgeRegs_of_vote hm] at hstate hold
    refine ⟨hsentinel hk, hstate, hold, _, exec_edgeTo_vote (exec_next_ready hexec) hm _,
      edgeVote_state_oldRot_of_decided ?_⟩
    exact (congrArg (classify · _) hstate).trans (classify_turn_after_sentinel hway hk s.regs.state)
  · have hsame : seen = s.regs.state := classify_eq_iff.mp (hnone hk)
    rw [hsame]
    exact ⟨rfl, edgeVote_of_no_change ht⟩

/-- Settles O38: the guard before the first RST stands in front of every meaning but that of RST, which
completes on any built block. -/
theorem beforeTheFirstRstOnlyRstRuns : Obligations.BeforeTheFirstRstOnlyRstRuns := by
  refine fun s i hvalid hseen => ⟨exec_before_rst hvalid hseen, fun hrst => ?_⟩
  obtain ⟨t, ht⟩ := exec_completes_iff.mpr ⟨hvalid, .inl hrst⟩
  exact ⟨t, ht, (exec_next_ready ht).2⟩

/-- Settles O44: the reset values meet the invariant in every valid configuration, so also in that of
`State.reset`. -/
theorem resetMeetsTheInvariant : Obligations.ResetMeetsTheInvariant := by
  have hvalid : Config.atReset.Valid := by decide
  exact ⟨⟨hvalid, rfl⟩, afterRst_inv hvalid 0⟩

end
